-- ==== Sys2Proof/Word.lean ====
section
/-! DEFINITION. The words of the block: channel bytes, command words, and one word on one port. -/

namespace Sys2Proof

/-- A channel value, the value on `resp`, a brightness: 8 bits, unsigned (R9, R12). -/
abbrev Byte := BitVec 8

/-- A command word on the `cmd` port: 32 bits (R91). -/
abbrev Word := BitVec 32

/-- The four places an operation is selected at: the ports `cmd`, `tick` and `reset` (R90), and ENGINE's phase
register, which no port presents (R99). -/
inductive Port where
  | cmd
  | tick
  | reset
  | phase
deriving DecidableEq, Repr

/-- One word at one of those places, at that place's own width (R90, R91, R94, R99). -/
inductive PortWord where
  | cmd (w : Word)
  | tick (b : BitVec 1)
  | reset (b : BitVec 1)
  | phase (c : BitVec 3)
deriving DecidableEq, Repr

end Sys2Proof
end

