-- ==== Sys2Proof/Syntax.lean ====
section
/-! DEFINITION. The operations of the block: one constructor for each row of spec/opcode_table.json. Every operand is a
bit field of the command word at its full width (R92), so every term of this type is an operation of the block: there is
no ill-formed one. The fields a row ignores (R98) are no operands (log 22). -/

namespace Sys2Proof

/-- The five host commands (R93), the two pin events (R94) and the six micro-operations (R99). -/
inductive Instr where
  /-- START freq, maxb: configure and enable (R210). -/
  | start (freq : BitVec 16) (maxb : Byte)
  /-- STOP: disable (R213). -/
  | stop
  /-- SETONE index, value: write one slot (R120). -/
  | setone (index : BitVec 16) (value : Byte)
  /-- SETALL value: write every slot (R122). -/
  | setall (value : Byte)
  /-- GETONE index: read one slot (R124). -/
  | getone (index : BitVec 16)
  /-- TICK: one assertion of the `tick` pin (R170). -/
  | tick
  /-- RESET: one assertion of the `reset` pin (R260). -/
  | reset
  /-- P_LATCHLO: latch line low (R173). -/
  | pLatchlo
  /-- P_DATA: compare and drive the data line (R174). -/
  | pData
  /-- P_CLKLO: clock line low (R176). -/
  | pClklo
  /-- P_CLKHI: clock line high, load-balance offset, loop control (R177). -/
  | pClkhi
  /-- P_LATCHHI: latch line high (R178). -/
  | pLatchhi
  /-- P_FINISH: counter update and guard release (R179). -/
  | pFinish
deriving DecidableEq, Repr

end Sys2Proof
end

