-- ==== Sys2Proof/Decode.lean ====
section
/-! DEFINITION. Decoding: the word at a port to the operation it selects, or a rejection by name; then the encoder. Both
follow R90 to R99; the opcode table itself stands here as data, so that the two can be held against it. -/

namespace Sys2Proof

/-- Why a word selects no operation. -/
inductive Reject where
  /-- A command word whose `op` is not 0x01 to 0x05: the block performs `noop` for it (R98). -/
  | reservedOpcode (op : BitVec 8)
  /-- A pin that is not asserted is no event (R94, R96, R97). -/
  | notAsserted
  /-- `phase` is IDLE: ENGINE has no step (R99, R172). -/
  | phaseIdle
  /-- `phase` code 7 is unused (R33, R99, U9). -/
  | phaseUnused
deriving DecidableEq, Repr

/-- `w[31:24]`, the operation code (R91). -/
def cmdOp (w : Word) : BitVec 8 := w.extractLsb' 24 8

/-- `w[23:8]`, the first operand: `freq` of START, `index` of SETONE and GETONE (R91, R92). -/
def cmdA (w : Word) : BitVec 16 := w.extractLsb' 8 16

/-- `w[7:0]`, the second operand: `maxb` of START, `value` of SETONE and SETALL (R91, R92). -/
def cmdD (w : Word) : BitVec 8 := w.extractLsb' 0 8

/-- A command word by its operation code (R93); every other code is reserved (R98). -/
def decodeCmd (w : Word) : Except Reject Instr :=
  if cmdOp w = 0x01#8 then .ok (.start (cmdA w) (cmdD w))
  else if cmdOp w = 0x02#8 then .ok .stop
  else if cmdOp w = 0x03#8 then .ok (.setone (cmdA w) (cmdD w))
  else if cmdOp w = 0x04#8 then .ok (.setall (cmdD w))
  else if cmdOp w = 0x05#8 then .ok (.getone (cmdA w))
  else .error (.reservedOpcode (cmdOp w))

/-- An assertion of a pin selects that pin's event (R94). -/
def decodePin (event : Instr) (b : BitVec 1) : Except Reject Instr :=
  if b = 1#1 then .ok event else .error .notAsserted

/-- The micro-operation a phase code selects (R33, R99). -/
def decodePhase (c : BitVec 3) : Except Reject Instr :=
  if c = 1#3 then .ok .pLatchlo
  else if c = 2#3 then .ok .pData
  else if c = 3#3 then .ok .pClklo
  else if c = 4#3 then .ok .pClkhi
  else if c = 5#3 then .ok .pLatchhi
  else if c = 6#3 then .ok .pFinish
  else if c = 0#3 then .error .phaseIdle
  else .error .phaseUnused

/-- What a word selects at its port; total, and a rejection is named. -/
def decode : PortWord → Except Reject Instr
  | .cmd w => decodeCmd w
  | .tick b => decodePin .tick b
  | .reset b => decodePin .reset b
  | .phase c => decodePhase c

/-- The command word `op ++ a ++ d` (R91). -/
def cmdWord (op : BitVec 8) (a : BitVec 16) (d : BitVec 8) : Word := op ++ a ++ d

/-- The word of an operation at its port. Fields a command ignores are written as zero, as the assembler does (R102). -/
def encode : Instr → PortWord
  | .start freq maxb => .cmd (cmdWord 0x01 freq maxb)
  | .stop => .cmd (cmdWord 0x02 0 0)
  | .setone index value => .cmd (cmdWord 0x03 index value)
  | .setall value => .cmd (cmdWord 0x04 0 value)
  | .getone index => .cmd (cmdWord 0x05 index 0)
  | .tick => .tick 1
  | .reset => .reset 1
  | .pLatchlo => .phase 1
  | .pData => .phase 2
  | .pClklo => .phase 3
  | .pClkhi => .phase 4
  | .pLatchhi => .phase 5
  | .pFinish => .phase 6

/-- The bits of a command word that its operation reads: the operation code and the fields R93 gives it. The others are
ignored (R98). -/
def usedBits : Instr → BitVec 32
  | .start _ _ => 0xFFFFFFFF
  | .stop => 0xFF000000
  | .setone _ _ => 0xFFFFFFFF
  | .setall _ => 0xFF0000FF
  | .getone _ => 0xFFFFFF00
  | _ => 0

/-- The port a word stands at. -/
def PortWord.port : PortWord → Port
  | .cmd _ => .cmd
  | .tick _ => .tick
  | .reset _ => .reset
  | .phase _ => .phase

/-- The bits of a port's word, widened with zeros. -/
def PortWord.bits : PortWord → BitVec 32
  | .cmd w => w
  | .tick b => b.setWidth 32
  | .reset b => b.setWidth 32
  | .phase c => c.setWidth 32

/-- One row of the opcode table: a word matches when `w & mask = match` at the row's port (R93, R94, R99). -/
structure OpcodeRow where
  mnemonic : String
  port : Port
  value : BitVec 32
  mask : BitVec 32
deriving DecidableEq, Repr

/-- Whether a word matches a row (R93). -/
def OpcodeRow.selects (r : OpcodeRow) (pw : PortWord) : Bool :=
  decide (pw.port = r.port) && decide (pw.bits &&& r.mask = r.value)

/-- The opcode table of R93, R94 and R99 (spec/opcode_table.json), row by row. -/
def opcodeTable : List OpcodeRow :=
  [⟨"START", .cmd, 0x01000000, 0xFF000000⟩,
   ⟨"STOP", .cmd, 0x02000000, 0xFF000000⟩,
   ⟨"SETONE", .cmd, 0x03000000, 0xFF000000⟩,
   ⟨"SETALL", .cmd, 0x04000000, 0xFF000000⟩,
   ⟨"GETONE", .cmd, 0x05000000, 0xFF000000⟩,
   ⟨"TICK", .tick, 0x1, 0x1⟩,
   ⟨"RESET", .reset, 0x1, 0x1⟩,
   ⟨"P_LATCHLO", .phase, 0x1, 0x7⟩,
   ⟨"P_DATA", .phase, 0x2, 0x7⟩,
   ⟨"P_CLKLO", .phase, 0x3, 0x7⟩,
   ⟨"P_CLKHI", .phase, 0x4, 0x7⟩,
   ⟨"P_LATCHHI", .phase, 0x5, 0x7⟩,
   ⟨"P_FINISH", .phase, 0x6, 0x7⟩]

/-- The mnemonic of an operation, as the table spells it. -/
def Instr.mnemonic : Instr → String
  | .start _ _ => "START"
  | .stop => "STOP"
  | .setone _ _ => "SETONE"
  | .setall _ => "SETALL"
  | .getone _ => "GETONE"
  | .tick => "TICK"
  | .reset => "RESET"
  | .pLatchlo => "P_LATCHLO"
  | .pData => "P_DATA"
  | .pClklo => "P_CLKLO"
  | .pClkhi => "P_CLKHI"
  | .pLatchhi => "P_LATCHHI"
  | .pFinish => "P_FINISH"

/-- The port word a numbered table word stands for. A word of more than one byte is a command word. The table's one-byte
words carry no port: codes 2 to 6 are phase codes, and the word 1, which the table gives to TICK, to RESET and to
P_LATCHLO alike, is taken as the table's first such row, TICK (DESIGN CHOICE, log 11; `decode` itself keeps the three
apart by their ports). Only the low three bits of a one-byte word are wired (R33, R99). -/
def tablePortWord (nbits w : Nat) : PortWord :=
  if nbits ≤ 8 then
    if w % 8 = 1 then .tick 1 else .phase (BitVec.ofNat 3 w)
  else .cmd (BitVec.ofNat 32 w)

/-- The operation the decoder reads from a numbered word of the opcode table. -/
def decodeTableWord (nbits w : Nat) : Option Instr :=
  match decode (tablePortWord nbits w) with
  | .ok i => some i
  | .error _ => none

end Sys2Proof
end

