-- ==== Sys2Proof/Config.lean ====
section
/-! DEFINITION. What is fixed when the block is instantiated (R8), and the values the spec leaves free. DESIGN CHOICE: a free
value is one uninterpreted function for every instance, so two machines that have drawn equally often draw equal values
(log 4, log 23; unsafe for a claim that compares the free values of two instances, R19). -/

namespace Sys2Proof

/-- The parameters of one instance of the block (R8). No step changes them; State holds them so that a statement
about every state is a statement about every instance (log 3). -/
structure Params where
  /-- `N_REGS`, the number of 8-output shift registers in the chain: 1 .. 8192 (R8, D9). -/
  nRegs : Nat
  /-- `INVERT`, the source's `outputInvert` flag (R8, R69). -/
  invert : Bool
  /-- `LOAD_BALANCE`, the source's `loadBalance` flag (R8, R177). -/
  loadBalance : Bool
  /-- `BASE_RATE`, the rate of the external tick in the unit of `freq`: at least 1 (R8, D10). -/
  baseRate : Nat
  /-- `LB_MOD256`: false, the load-balance addition wraps modulo `maxb + 1`; true, modulo 256 (R8, R177, D18, U4). -/
  lbMod256 : Bool
  /-- `HSV_READBACK_FIXED`, of the host software only (R8, R152, U13). -/
  hsvReadbackFixed : Bool
deriving DecidableEq, Repr

/-- `NCH = 8 * N_REGS`, the number of channels (R8). -/
def Params.nch (p : Params) : Nat := 8 * p.nRegs

/-- FREE VALUE. What slot `i` of the channel buffer holds before its first write: some byte, possibly another for each
slot, the same on every read (R44, R124, U2; log 4). DESIGN CHOICE: it is one draw for every instance and every power-up,
so two instances agree on slots neither has written, which R19 and R44 do not say (log 4, unsafe). -/
opaque Config.powerUpByte : Nat → Byte

/-- FREE VALUE. The level of `resp` where no response is defined, one for each draw (R90, U16; log 6). -/
opaque Config.freeResp : Nat → Byte

/-- FREE VALUE. A shift stage of the chain while its contents are unknown: draw, stage (R70, R74, U3; log 7). -/
opaque Config.freeStage : Nat → Nat → Bool

/-- FREE VALUE. An output of the chain while its contents are unknown: draw, output (R70, R74, U3; log 7). -/
opaque Config.freeOut : Nat → Nat → Bool

/-- FREE VALUE. With no turn left in the script and both ENGINE and HOST in the middle of something, whether ENGINE
moves first, one for each draw (R238, U19; log 2). -/
opaque Config.freeEngineFirst : Nat → Bool

/-- FREE VALUE. The host software's `swMaxb` before its first START (R140, U14; log 17). -/
opaque Config.powerUpSwMaxb : Byte

/-- FREE VALUE. `HSV_READBACK_FIXED` of the instance that State.reset is: the spec chooses no default (R152, U13; log 20). -/
opaque Config.hsvReadbackFixed : Bool

end Sys2Proof
end

