-- ==== Sys2Proof/Machine/State.lean ====
section
/-! DEFINITION. The state of the machine: the block (R21), what it has under way, the attached chain (R70), the host
software (R140), and the turns the agents still take (R11); and the reasons a step can stop. Plain data throughout. -/

namespace Sys2Proof.Machine

/-- The pass sequencer's position (R33). Its codes stand in Machine/Ops.lean; code 7 does not exist (U9, log 15). -/
inductive Phase where
  | idle
  | latchLow
  | data
  | clkLow
  | clkHigh
  | latchHigh
  | finish
deriving DecidableEq, Repr

/-- The block's registers: every element of R21 but `buf`, each with R21's width. -/
structure Regs where
  /-- 1: TICK events are acted on (R28). -/
  enable : Bool
  /-- 1: the three lines are driven (R30). -/
  oe : Bool
  /-- 1: a pass is in progress, the reentrancy guard (R26). -/
  busy : Bool
  /-- Comparison counter, `0 .. maxb` (R32). -/
  counter : BitVec 8
  /-- PWM resolution, maxBrightness (R32). -/
  maxb : BitVec 8
  /-- Countdown reload value, irqPrescaler (R32). -/
  presc : BitVec 17
  /-- Ticks left before the next pass (R32). -/
  pcount : BitVec 17
  /-- Pass sequencer position (R33). -/
  phase : Phase
  /-- Index of the channel being shifted (R34). -/
  idx : BitVec 16
  /-- Comparison counter of the current pass (R36). -/
  cmp : BitVec 8
  /-- Level of the data line register `DATA` (R14). -/
  data : Bool
  /-- Level of the clock line register `CLOCK` (R14). -/
  clock : Bool
  /-- Level of the latch line register `LATCH` (R14). -/
  latch : Bool
deriving DecidableEq, Repr

/-- The channel buffer: the slots written since power-up, index and value, indices strictly rising. A slot not listed
has no written value; it reads as its power-up draw (R44; log 4). -/
abbrev Memory := List Host.Cell

/-- A SETALL under way: the next slot it writes, and the value (R122). -/
structure SetallRun where
  next : Nat
  value : Byte
deriving DecidableEq, Repr

/-- The attached shift-register chain (R70): stage `j` at position `j` of each list, stage 0 nearest the data input. -/
structure Chain where
  sr : List Bool
  out : List Bool
deriving DecidableEq, Repr

/-- The pseudo-operations of the host software (R103). All operands are non-negative integers or bytes (R140). -/
inductive HostOp where
  /-- SETPINGROUPING (R141). -/
  | setPinGrouping (grouping : Nat)
  /-- SETGROUPOF2 (R142). -/
  | setGroupOf2 (group : Nat) (v0 v1 : Byte) (offset : Nat)
  /-- SETGROUPOF3 (R142). -/
  | setGroupOf3 (group : Nat) (v0 v1 v2 : Byte) (offset : Nat)
  /-- SETGROUPOF4 (R142). -/
  | setGroupOf4 (group : Nat) (v0 v1 v2 v3 : Byte) (offset : Nat)
  /-- SETGROUPOF5 (R142). -/
  | setGroupOf5 (group : Nat) (v0 v1 v2 v3 v4 : Byte) (offset : Nat)
  /-- SETRGB (R145). -/
  | setRgb (channel : Nat) (r g b : Byte) (offset : Nat)
  /-- SETALLRGB (R147). -/
  | setAllRgb (r g b : Byte)
  /-- SETHSV (R149). -/
  | setHsv (channel hue : Nat) (sat val : Byte) (offset : Nat)
  /-- SETALLHSV (R152). -/
  | setAllHsv (hue : Nat) (sat val : Byte)
  /-- ONEBYONESLOW (R154). -/
  | oneByOneSlow
  /-- ONEBYONEFAST (R154). -/
  | oneByOneFast
deriving DecidableEq, Repr

/-- One thing the host software still does for the pseudo-operation it is in (R155: each command is a step of its own). -/
inductive HostAction where
  /-- Present this command word. -/
  | send (w : Word)
  /-- GETONE this slot and keep the response (R152). -/
  | readBack (slot : Nat)
  /-- SETALLRGB of the three responses kept (R152). -/
  | replicate
deriving DecidableEq, Repr

/-- The host software's state: its two variables (R140) and where it stands in a pseudo-operation (log 18). -/
structure HostSw where
  /-- `none` until the first SETPINGROUPING (R140, U17). -/
  pinGrouping : Option Nat
  /-- The maxBrightness last passed to START (R140). -/
  swMaxb : Byte
  /-- What the pseudo-operation under way still does, in order. -/
  current : List HostAction
  /-- The response of the command being presented is to be kept. -/
  keepResp : Bool
  /-- The responses kept, oldest first. -/
  kept : List Byte
deriving DecidableEq, Repr

/-- One turn: which agent moves, and with what (R11, R238). The script of turns is the order of the agents' steps. -/
inductive Turn where
  /-- HOST presents this command word (R95). -/
  | command (w : Word)
  /-- HOST begins this pseudo-operation (R103). -/
  | hostOp (o : HostOp)
  /-- HOST takes one step of what it is in the middle of: a SETALL, a pseudo-operation. -/
  | host
  /-- HOST takes such steps until it is in the middle of nothing. -/
  | finishHost
  /-- TICKSRC asserts `tick` (R96). -/
  | tick
  /-- RESETSRC asserts `reset` (R97). -/
  | reset
  /-- ENGINE takes one step, if it has one (R172; `STEP 1` of R102). -/
  | engine
  /-- ENGINE takes steps until `phase = IDLE` (`RUN` of R102). -/
  | run
deriving DecidableEq, Repr

/-- The machine. -/
structure State where
  /-- The instance's parameters (R8, R22): no step changes them. -/
  params : Params
  /-- The block's registers (R21). -/
  regs : Regs
  /-- The channel buffer (R21, R23). -/
  buf : Memory
  /-- A SETALL under way, if there is one (R95, R122). -/
  setall : Option SetallRun
  /-- The level of the response port (R90). -/
  resp : Byte
  /-- The attached chain (R70). -/
  chain : Chain
  /-- The host software (R140). -/
  host : HostSw
  /-- MODEL'S OWN: the turns still to be taken, oldest first (log 1). -/
  script : List Turn
  /-- MODEL'S OWN: how many free values have been drawn (log 23). -/
  draws : Nat
deriving DecidableEq, Repr

/-- Why the machine stops. The block itself has no fault (R230, R231); these are states no run reaches. -/
inductive Fault where
  /-- P_DATA read a slot index outside the buffer: an address that does not exist (R60, R13, R34). Raised by execPData
  alone, in a state that breaks `idx < NCH`. SAFE (log 14). -/
  | slotOutside (index : Nat)
  /-- The host software replicates a read-back that is not complete (R152). Raised by replicateKept alone, in a state
  no pseudo-operation leads to. SAFE (log 18). -/
  | readBackIncomplete
deriving DecidableEq, Repr

/-- What the model gives no meaning, because the spec gives none. -/
inductive Refusal where
  /-- An instruction that has no meaning yet, by its mnemonic. Raised by exec's arms alone. SAFE. -/
  | notModelled (mnemonic : String)
  /-- START while a pass is in progress (R211, R232, U1). Raised by execStart. SAFE (log 13). -/
  | startWhileBusy
  /-- Phase code 7 (R33, U9). Raised by runWord, for a phase register that no State holds. SAFE (log 15). -/
  | phaseUnused
  /-- SETPINGROUPING 0 (R141, U11). Raised by performOp. SAFE (log 17). -/
  | groupingZero
  /-- A grouped or colour write before SETPINGROUPING (R140, U17). Raised by performOp. SAFE (log 17). -/
  | groupingUnset
  /-- SETHSV or SETALLHSV with `hue >= 360` (R149, U12). Raised by performOp. SAFE (log 17). -/
  | hueOutOfRange
  /-- ONEBYONESLOW and ONEBYONEFAST are names without an expansion (R154, U18). Raised by performOp. SAFE (log 17). -/
  | noExpansion
deriving DecidableEq, Repr

/-- The outcomes of a step of this machine. -/
abbrev Outcome := Host.Outcome State Fault Refusal

/-- The registers after RESET: every one 0 (R40, R260). -/
def Regs.reset : Regs where
  enable := false
  oe := false
  busy := false
  counter := 0
  maxb := 0
  presc := 0
  pcount := 0
  phase := .idle
  idx := 0
  cmp := 0
  data := false
  clock := false
  latch := false

/-- A chain of `n` stages about which nothing is known: free values, draw `d` (R70, R74). -/
def Chain.unknown (n d : Nat) : Chain where
  sr := (List.range n).map (Config.freeStage d)
  out := (List.range n).map (Config.freeOut d)

/-- The instance that State.reset is: the parameters `95_test_vectors.md` uses unless it says otherwise
(DESIGN CHOICE, log 3), and no choice of HSV_READBACK_FIXED (log 20). -/
def Params.standard : Params where
  nRegs := 1
  invert := false
  loadBalance := false
  baseRate := 1000
  lbMod256 := false
  hsvReadbackFixed := Config.hsvReadbackFixed

/-- The host software before its first operation (R140; log 17). -/
def HostSw.initial : HostSw where
  pinGrouping := none
  swMaxb := Config.powerUpSwMaxb
  current := []
  keepResp := false
  kept := []

/-- The machine right after power-up and RESET (R40, R44, R47): registers 0, no slot written, no SETALL, the chain and
`resp` unknown, no turn to take. -/
def State.reset : State where
  params := Params.standard
  regs := Regs.reset
  buf := []
  setall := none
  resp := Config.freeResp 0
  chain := Chain.unknown 8 0
  host := HostSw.initial
  script := []
  draws := 1

end Sys2Proof.Machine
end

