-- ==== Sys2Proof/Machine/Ops.lean ====
section
/-! DEFINITION. The named operations over the buffer, the registers and the ports; beginning a pass and returning from
one (the block's only analogue of taking an exception, R239, R241). -/

namespace Sys2Proof.Machine

/-! ### The channel buffer as a list of written slots -/

/-- The value last written to slot `a`, if it was ever written. -/
def Memory.read? : Memory → Nat → Option Byte
  | [], _ => none
  | (b, v) :: m, a => if a = b then some v else Memory.read? m a

/-- Slot `a` written with `v`: indices stay strictly rising. -/
def Memory.write : Memory → Nat → Byte → Memory
  | [], a, v => [(a, v)]
  | (b, x) :: m, a, v =>
    if a < b then (a, v) :: (b, x) :: m
    else if a = b then (a, v) :: m
    else (b, x) :: Memory.write m a v

/-- The canonical form: indices strictly rising. A slot not listed has no written value, so no entry repeats what an
unlisted slot holds, and equal buffers are equal lists (log 4). -/
abbrev Memory.wf (m : Memory) : Prop := m.Pairwise (fun x y => x.1 < y.1)

/-! ### Updates of one part of the state -/

/-- The block's registers replaced. -/
def State.setRegs (s : State) (r : Regs) : State := { s with regs := r }

/-- The channel buffer replaced. -/
def State.setBuf (s : State) (m : Memory) : State := { s with buf := m }

/-- The SETALL under way replaced. -/
def State.setSetall (s : State) (r : Option SetallRun) : State := { s with setall := r }

/-- The response port driven: `resp <- v` (R13). -/
def State.setResp (s : State) (v : Byte) : State := { s with resp := v }

/-- The attached chain replaced. -/
def State.setChain (s : State) (c : Chain) : State := { s with chain := c }

/-- The host software's state replaced. -/
def State.setHost (s : State) (h : HostSw) : State := { s with host := h }

/-- The turns still to be taken replaced. -/
def State.setScript (s : State) (ts : List Turn) : State := { s with script := ts }

/-- One more free value drawn. -/
def State.drawn (s : State) : State := { s with draws := s.draws + 1 }

/-! ### Buffer accesses (R13) and the response port -/

/-- `MemRead(i, 1)`: slot `i`, or its power-up draw when nothing has written it (R13, R44). Callers check `i < NCH`. -/
def State.memRead (s : State) (i : Nat) : Byte := (s.buf.read? i).getD (Config.powerUpByte i)

/-- `MemWrite(i, 1, v)`: slot `i` takes `v` (R13). Callers check `i < NCH`. -/
def State.memWrite (s : State) (i : Nat) (v : Byte) : State := s.setBuf (s.buf.write i v)

/-- `resp` after a command that defines no response: any value (R90, U16; log 6). -/
def State.respUndefined (s : State) : State := (s.setResp (Config.freeResp s.draws)).drawn

/-! ### Phase codes (R33, R99) -/

/-- The code the 3-bit phase register holds (R33). -/
def Phase.code : Phase → BitVec 3
  | .idle => 0
  | .latchLow => 1
  | .data => 2
  | .clkLow => 3
  | .clkHigh => 4
  | .latchHigh => 5
  | .finish => 6

/-- The phase of a code; 7 is no phase (R33, U9). -/
def Phase.ofCode (c : BitVec 3) : Option Phase :=
  if c = 0#3 then some .idle
  else if c = 1#3 then some .latchLow
  else if c = 2#3 then some .data
  else if c = 3#3 then some .clkLow
  else if c = 4#3 then some .clkHigh
  else if c = 5#3 then some .latchHigh
  else if c = 6#3 then some .finish
  else none

/-! ### Entry to a pass and return from it -/

/-- Entry (R239, case (d) of R170): nothing is saved, the guard is set, the countdown is reloaded, the comparison counter
is copied, the last channel `NCH - 1` is selected and the sequence starts at LATCH_LOW. -/
def beginPass (p : Params) (r : Regs) : Regs :=
  { r with
    pcount := r.presc
    busy := true
    cmp := r.counter
    idx := BitVec.ofNat 16 (p.nch - 1)
    phase := .latchLow }

/-- Return (R241, R179): the guard is released and the sequencer is idle; nothing is restored. -/
def endPass (r : Regs) : Regs := { r with busy := false, phase := .idle }

end Sys2Proof.Machine
end

