-- ==== Sys2Proof/Machine/Chain.lean ====
section
/-! DEFINITION. What the attached shift-register chain does in a step, from the lines before and after it (R70 to R74). -/

namespace Sys2Proof.Machine

/-- A shift (R71): stage 0 takes the data line, every other stage its neighbour nearer the data input. -/
def Chain.shift (c : Chain) (bit : Bool) : Chain := { c with sr := (bit :: c.sr).take c.sr.length }

/-- A latch (R72): every output takes its stage. -/
def Chain.present (c : Chain) : Chain := { c with out := c.sr }

/-- A line goes from 0 to 1 (R14). -/
def risingEdge (before after : Bool) : Bool := !before && after

/-- The chain after a step that took the registers from `r` to `r'` with the lines driven throughout: a rising clock edge
shifts the level of the data line in, a rising latch edge presents the stages (R71, R72, D31). -/
def Chain.driven (c : Chain) (r r' : Regs) : Chain :=
  let c₁ := if risingEdge r.clock r'.clock then c.shift r.data else c
  if risingEdge r.latch r'.latch then c₁.present else c₁

/-- The chain's reaction to a step from `s` to `t`. While the lines are not driven its behaviour is unknown, so its
contents are drawn anew in every such step (R74, R260, U3; log 7). -/
def chainReact (s t : State) : State :=
  if s.regs.oe && t.regs.oe then t.setChain (t.chain.driven s.regs t.regs)
  else (t.setChain (Chain.unknown t.params.nch t.draws)).drawn

end Sys2Proof.Machine
end

