-- ==== Sys2Proof/Machine/Operands.lean ====
section
/-! DEFINITION. The operand forms: the slot index of a buffer command (R62, R120), the prescaler value START computes from
`freq` (R210), and the channel index the sequencer counts down (R34). -/

namespace Sys2Proof.Machine

/-- Whether an index operand names a slot: unsigned, no lower bound to check, nothing wraps (R62, R121). -/
def slotInRange (p : Params) (index : BitVec 16) : Bool := decide (index.toNat < p.nch)

/-- `freq / BASE_RATE + 1`, floor division, 17 bits (R210, R12, D10). -/
def prescalerOf (p : Params) (freq : BitVec 16) : BitVec 17 := BitVec.ofNat 17 (freq.toNat / p.baseRate + 1)

/-- Whether the channel just shifted is the last of its register, `idx mod 8 = 0` (R177). -/
def registerBoundary (idx : BitVec 16) : Bool := decide (idx.toNat % 8 = 0)

end Sys2Proof.Machine
end

