-- ==== Sys2Proof/Machine/Buffer.lean ====
section
/-! DEFINITION. SETONE, SETALL, GETONE (R120 to R126). No buffer command reads or writes a register (R125). -/

namespace Sys2Proof.Machine

/-- SETONE (R120): the slot is written when the index is in range, else nothing; `resp` is not defined after it. -/
def execSetone (index : BitVec 16) (value : Byte) (s : State) : Outcome :=
  if slotInRange s.params index then .next (s.memWrite index.toNat value).respUndefined
  else .next s.respUndefined

/-- The SETALL still under way after slot `i` has been written (R122). -/
def setallAfter (p : Params) (i : Nat) (value : Byte) : Option SetallRun :=
  if i + 1 < p.nch then some ⟨i + 1, value⟩ else none

/-- One iteration of SETALL, one atomic step (R122): slot `i` is written, and the next iteration, if there is one, waits
for HOST's next step. `resp` is not defined (log 6). -/
def setallWrite (i : Nat) (value : Byte) (s : State) : State :=
  ((s.memWrite i value).setSetall (setallAfter s.params i value)).respUndefined

/-- SETALL (R122): its first iteration, slot 0; the other `NCH - 1` are HOST's next steps, between which other agents
may step (log 9). -/
def execSetall (value : Byte) (s : State) : Outcome := .next (setallWrite 0 value s)

/-- GETONE (R124): `resp` takes the slot, or 0x00 when the index is out of range. -/
def execGetone (index : BitVec 16) (s : State) : Outcome :=
  .next (s.setResp (if slotInRange s.params index then s.memRead index.toNat else 0x00))

end Sys2Proof.Machine
end

