-- ==== Sys2Proof/Machine/Flags.lean ====
section
/-! DEFINITION. The computed bits and counters: the comparison bit (R69, R174), the countdown (R170), the load-balance
addition (R177) and the counter update (R179). The block has no condition codes (R29). -/

namespace Sys2Proof.Machine

/-- The bit shifted for a channel holding `v`: an unsigned comparison with the pass's comparison counter, its complement
when the instance inverts (R69, R174, R175). -/
def compareBit (p : Params) (v cmp : BitVec 8) : Bool :=
  if p.invert then decide (v.toNat ≤ cmp.toNat) else decide (v.toNat > cmp.toNat)

/-- `(pcount - 1) mod 2^17` (R170). -/
def countDown (pcount : BitVec 17) : BitVec 17 := pcount - 1

/-- `LBMOD`: 256 when `LB_MOD256 = 1`, else `maxb + 1` (R177). -/
def lbMod (p : Params) (maxb : BitVec 8) : Nat := if p.lbMod256 then 256 else maxb.toNat + 1

/-- The load-balance addition `(cmp + 8) mod LBMOD` (R177, R9). -/
def addOffset (p : Params) (maxb cmp : BitVec 8) : BitVec 8 := BitVec.ofNat 8 ((cmp.toNat + 8) % lbMod p maxb)

/-- `(counter >= maxb) ? 0 : counter + 1` (R179, R180). -/
def advanceCounter (maxb counter : BitVec 8) : BitVec 8 :=
  if maxb.toNat ≤ counter.toNat then 0 else counter + 1

end Sys2Proof.Machine
end

