-- ==== Sys2Proof/Machine/Engine.lean ====
section
/-! DEFINITION. TICK (R170, R171) and ENGINE's micro-operations (R172 to R181). Each writes only the registers its rule
names; what the line writes do to the attached chain stands in Machine/Chain.lean. -/

namespace Sys2Proof.Machine

/-- The tick handler on the registers (R170): enable first, then the guard, then the countdown (R236). -/
def tickRegs (p : Params) (r : Regs) : Regs :=
  if r.enable = false then r
  else if r.busy then r
  else if countDown r.pcount = 0#17 then beginPass p r
  else { r with pcount := countDown r.pcount }

/-- TICK (R170). -/
def execTick (s : State) : Outcome := .next (s.setRegs (tickRegs s.params s.regs))

/-- P_LATCHLO (R173): the latch line goes low. -/
def execPLatchlo (s : State) : Outcome := .next (s.setRegs { s.regs with latch := false, phase := .data })

/-- P_DATA (R174): the channel `idx` is read and compared, and the data line takes the bit. `idx < NCH` always holds
(R34); in a state where it does not, the access has no address (R60, log 14). -/
def execPData (s : State) : Outcome :=
  if s.regs.idx.toNat < s.params.nch then
    .next (s.setRegs
      { s.regs with
        data := compareBit s.params (s.memRead s.regs.idx.toNat) s.regs.cmp
        phase := .clkLow })
  else .fault (.slotOutside s.regs.idx.toNat)

/-- P_CLKLO (R176): the clock line goes low. -/
def execPClklo (s : State) : Outcome := .next (s.setRegs { s.regs with clock := false, phase := .clkHigh })

/-- The comparison counter after the channel just shifted (R177): offset at a register boundary, with load balancing on. -/
def cmpAfterShift (p : Params) (r : Regs) : BitVec 8 :=
  if p.loadBalance && registerBoundary r.idx then addOffset p r.maxb r.cmp else r.cmp

/-- P_CLKHI on the registers (R177): clock high, offset, and the loop control of the pass. -/
def clkhiRegs (p : Params) (r : Regs) : Regs :=
  if r.idx = 0#16 then { r with clock := true, cmp := cmpAfterShift p r, phase := .latchHigh }
  else { r with clock := true, cmp := cmpAfterShift p r, idx := r.idx - 1, phase := .data }

/-- P_CLKHI (R177). -/
def execPClkhi (s : State) : Outcome := .next (s.setRegs (clkhiRegs s.params s.regs))

/-- P_LATCHHI (R178): the latch line goes high. -/
def execPLatchhi (s : State) : Outcome := .next (s.setRegs { s.regs with latch := true, phase := .finish })

/-- P_FINISH (R179): the counter advances and the pass is over. -/
def execPFinish (s : State) : Outcome :=
  .next (s.setRegs (endPass { s.regs with counter := advanceCounter s.regs.maxb s.regs.counter }))

end Sys2Proof.Machine
end

