-- ==== Sys2Proof/Machine/Lifecycle.lean ====
section
/-! DEFINITION. START, STOP (R210 to R216) and RESET (R260, R261). -/

namespace Sys2Proof.Machine

/-- The ten register writes of START, all in one step (R210, D20). -/
def startRegs (p : Params) (freq : BitVec 16) (maxb : Byte) (r : Regs) : Regs :=
  { r with
    oe := true
    clock := false
    data := false
    maxb := maxb
    presc := prescalerOf p freq
    pcount := prescalerOf p freq
    counter := 0
    busy := false
    phase := .idle
    enable := true }

/-- START (R210): specified only when no pass is in progress; otherwise the model refuses (R211, R232, U1).
`resp` is not defined after it. -/
def execStart (freq : BitVec 16) (maxb : Byte) (s : State) : Outcome :=
  if s.regs.busy then .refused .startWhileBusy
  else .next (s.setRegs (startRegs s.params freq maxb s.regs)).respUndefined

/-- STOP (R213): `enable <- 0` and nothing else; `resp` is not defined after it. -/
def execStop (s : State) : Outcome := .next (s.setRegs { s.regs with enable := false }).respUndefined

/-- RESET (R260, R261): every register 0, in any state; the buffer is kept, a SETALL under way is dropped. What `resp`
shows after it is not stated (log 6); the chain becomes unknown because the lines are released (R74, Machine/Chain.lean). -/
def execReset (s : State) : Outcome := .next ((s.setRegs Regs.reset).setSetall none).respUndefined

end Sys2Proof.Machine
end

