-- ==== Sys2Proof/Machine/Dispatch.lean ====
section
/-! DEFINITION. One arm for each operation. -/

namespace Sys2Proof.Machine

/-- The effect of one operation on the state. -/
def exec (i : Instr) (s : State) : Host.Outcome State Fault Refusal :=
  match i with
  | .start freq maxb => Sys2Proof.Machine.execStart freq maxb s
  | .stop => Sys2Proof.Machine.execStop s
  | .setone index value => Sys2Proof.Machine.execSetone index value s
  | .setall value => Sys2Proof.Machine.execSetall value s
  | .getone index => Sys2Proof.Machine.execGetone index s
  | .tick => Sys2Proof.Machine.execTick s
  | .reset => Sys2Proof.Machine.execReset s
  | .pLatchlo => Sys2Proof.Machine.execPLatchlo s
  | .pData => Sys2Proof.Machine.execPData s
  | .pClklo => Sys2Proof.Machine.execPClklo s
  | .pClkhi => Sys2Proof.Machine.execPClkhi s
  | .pLatchhi => Sys2Proof.Machine.execPLatchhi s
  | .pFinish => Sys2Proof.Machine.execPFinish s

end Sys2Proof.Machine
end

