-- ==== Sys2Proof/Machine/HostSoftware.lean ====
section
/-! DEFINITION. The host software: each pseudo-operation and the commands it expands to (R140 to R156). It reaches the
block only through SETONE and GETONE (R6, R156). Arithmetic is over unbounded non-negative integers (D32). -/

namespace Sys2Proof.Machine

/-- `scale(c) = (c * swMaxb) >> 8` (R146, C2). -/
def scale (swMaxb c : Byte) : Byte := BitVec.ofNat 8 (c.toNat * swMaxb.toNat / 256)

/-- `skip + group + offset` of a grouped write of `n` values (R142). -/
def groupBase (grouping n group offset : Nat) : Nat := group + (n - 1) * grouping * (group / grouping) + offset

/-- The SETONE commands that write `vs` at `base`, `base + grouping`, ..., in that order (R142). -/
def setoneRun (grouping base : Nat) : List Byte → List HostAction
  | [] => []
  | v :: vs => .send (cmdWord 0x03 (BitVec.ofNat 16 base) v) :: setoneRun grouping (base + grouping) vs

/-- SETGROUPOFn (R142): only the last target is checked, and when it is out of range no command is sent. -/
def groupWrites (p : Params) (grouping group : Nat) (vs : List Byte) (offset : Nat) : List HostAction :=
  if groupBase grouping vs.length group offset + (vs.length - 1) * grouping < p.nch then
    setoneRun grouping (groupBase grouping vs.length group offset) vs
  else []

/-- SETRGB (R145): scale each component, then the 3-way grouped write. -/
def rgbWrites (p : Params) (grouping : Nat) (swMaxb : Byte) (channel : Nat) (r g b : Byte) (offset : Nat) :
    List HostAction :=
  groupWrites p grouping channel [scale swMaxb r, scale swMaxb g, scale swMaxb b] offset

/-- SETALLRGB (R147): SETRGB of the groups `0 .. NCH/3 - 1`, ascending, offset 0. -/
def allRgbWrites (p : Params) (grouping : Nat) (swMaxb r g b : Byte) : List HostAction :=
  (List.range (p.nch / 3)).flatMap (fun group => rgbWrites p grouping swMaxb group r g b 0)

/-- `bottom = ((255 - sat) * val) >> 8` (R149). -/
def hsvBottom (sat val : Byte) : Nat := (255 - sat.toNat) * val.toNat / 256

/-- `rising` (R149; the interpolation is the spec's general knowledge, G2, log 19). -/
def hsvRising (hue : Nat) (sat val : Byte) : Nat :=
  (val.toNat - hsvBottom sat val) * (hue % 60) / 60 + hsvBottom sat val

/-- `falling` (R149; G2, log 19). -/
def hsvFalling (hue : Nat) (sat val : Byte) : Nat :=
  (val.toNat - hsvBottom sat val) * (60 - hue % 60) / 60 + hsvBottom sat val

/-- The sextant table (R150; G2, log 19): red, green, blue for `H_accent = hue / 60` in 0 .. 5; no other sextant exists
(U12). -/
def hsvToRgb (hue : Nat) (sat val : Byte) : Option (Byte × Byte × Byte) :=
  let top := val
  let bottom := BitVec.ofNat 8 (hsvBottom sat val)
  let rising := BitVec.ofNat 8 (hsvRising hue sat val)
  let falling := BitVec.ofNat 8 (hsvFalling hue sat val)
  match hue / 60 with
  | 0 => some (top, rising, bottom)
  | 1 => some (falling, top, bottom)
  | 2 => some (bottom, top, rising)
  | 3 => some (bottom, falling, top)
  | 4 => some (rising, bottom, top)
  | 5 => some (top, bottom, falling)
  | _ => none

/-- The slots SETALLHSV reads back (R152): the slots group 0 was written to, or 0, 1, 2 whatever the grouping is. -/
def readBackSlots (p : Params) (grouping : Nat) : List Nat :=
  if p.hsvReadbackFixed then [0, 1, 2] else [0, grouping, 2 * grouping]

/-- HOST begins the list of actions a pseudo-operation expands to. -/
def State.beginActions (s : State) (as : List HostAction) : State :=
  s.setHost { s.host with current := as, kept := [] }

/-- A grouped or colour write needs a `pinGrouping` that is set and is not 0 (R140, R141, U11, U17). -/
def withGrouping (s : State) (k : Nat → Outcome) : Outcome :=
  match s.host.pinGrouping with
  | none => .refused .groupingUnset
  | some 0 => .refused .groupingZero
  | some (g + 1) => k (g + 1)

/-- A colour in HSV needs a hue in 0 .. 359 (R149, U12). -/
def withHsv (hue : Nat) (sat val : Byte) (k : Byte × Byte × Byte → Outcome) : Outcome :=
  match hsvToRgb hue sat val with
  | none => .refused .hueOutOfRange
  | some rgb => k rgb

/-- HOST begins a pseudo-operation: its commands become what HOST still does, each a step of its own (R155). -/
def performOp (o : HostOp) (s : State) : Outcome :=
  match o with
  | .setPinGrouping grouping =>
    if grouping = 0 then .refused .groupingZero else .next (s.setHost { s.host with pinGrouping := some grouping })
  | .setGroupOf2 group v0 v1 offset =>
    withGrouping s fun g => .next (s.beginActions (groupWrites s.params g group [v0, v1] offset))
  | .setGroupOf3 group v0 v1 v2 offset =>
    withGrouping s fun g => .next (s.beginActions (groupWrites s.params g group [v0, v1, v2] offset))
  | .setGroupOf4 group v0 v1 v2 v3 offset =>
    withGrouping s fun g => .next (s.beginActions (groupWrites s.params g group [v0, v1, v2, v3] offset))
  | .setGroupOf5 group v0 v1 v2 v3 v4 offset =>
    withGrouping s fun g => .next (s.beginActions (groupWrites s.params g group [v0, v1, v2, v3, v4] offset))
  | .setRgb channel r g b offset =>
    withGrouping s fun n => .next (s.beginActions (rgbWrites s.params n s.host.swMaxb channel r g b offset))
  | .setAllRgb r g b =>
    withGrouping s fun n => .next (s.beginActions (allRgbWrites s.params n s.host.swMaxb r g b))
  | .setHsv channel hue sat val offset =>
    withGrouping s fun n => withHsv hue sat val fun (r, g, b) =>
      .next (s.beginActions (rgbWrites s.params n s.host.swMaxb channel r g b offset))
  | .setAllHsv hue sat val =>
    withGrouping s fun n => withHsv hue sat val fun (r, g, b) =>
      .next (s.beginActions (rgbWrites s.params n s.host.swMaxb 0 r g b 0
        ++ (readBackSlots s.params n).map .readBack ++ [.replicate]))
  | .oneByOneSlow => .refused .noExpansion
  | .oneByOneFast => .refused .noExpansion

/-- A read-back of a slot whose index no command word can carry: it is out of range, so its value is 0 (R152, R63;
log 18). -/
def State.keepZero (s : State) : State := s.setHost { s.host with kept := s.host.kept ++ [0] }

/-- The second half of SETALLHSV: SETALLRGB of the three bytes read back (R152, R153). -/
def replicateKept (s : State) : Outcome :=
  match s.host.kept with
  | [r, g, b] => withGrouping s fun n => .next (s.beginActions (allRgbWrites s.params n s.host.swMaxb r g b))
  | _ => .fault .readBackIncomplete

/-- What the host software does when a command of its own has been performed: it remembers the maxBrightness it passed
to START (R140), and it keeps the response of a read-back (R152). -/
def State.hostNotes (i : Instr) (s : State) : State :=
  match i with
  | .start _ maxb => s.setHost { s.host with swMaxb := maxb }
  | .getone _ =>
    if s.host.keepResp then s.setHost { s.host with kept := s.host.kept ++ [s.resp], keepResp := false } else s
  | _ => s

end Sys2Proof.Machine
end

