-- ==== Sys2Proof/Machine/Turns.lean ====
section
/-! DEFINITION. Which agent moves next and what it does: the interleaving of HOST, TICKSRC, ENGINE and RESETSRC
(R11, R95, R172, R238), read from the script of turns in State. -/

namespace Sys2Proof.Machine

/-- What the next step does. -/
inductive Move where
  /-- A word selects an operation at its port. -/
  | word (pw : PortWord)
  /-- HOST performs the next iteration of a SETALL (R122). -/
  | setallNext (r : SetallRun)
  /-- HOST begins a pseudo-operation. -/
  | hostOp (o : HostOp)
  /-- HOST begins the second half of SETALLHSV (R152). -/
  | replicate
  /-- HOST reads back a slot that no command word can name (R152). -/
  | keepZero
  /-- No agent has a step to take. -/
  | nothing
deriving DecidableEq, Repr

/-- HOST is in the middle of a SETALL or of a pseudo-operation. -/
def State.hostBusy (s : State) : Bool := s.setall.isSome || !s.host.current.isEmpty

/-- ENGINE has a step exactly when `phase != IDLE` (R172). -/
def State.engineReady (s : State) : Bool := decide (s.regs.phase ≠ .idle)

/-- HOST's next step in what it is in the middle of: the SETALL first, since no other command falls between its
iterations (R95), then the pseudo-operation. -/
def hostMove (s : State) : Move × State :=
  match s.setall, s.host.current with
  | some r, _ => (.setallNext r, s)
  | none, [] => (.nothing, s)
  | none, .send w :: rest => (.word (.cmd w), s.setHost { s.host with current := rest })
  | none, .readBack slot :: rest =>
    if slot < 65536 then
      (.word (.cmd (cmdWord 0x05 (BitVec.ofNat 16 slot) 0)), s.setHost { s.host with current := rest, keepResp := true })
    else (.keepZero, s.setHost { s.host with current := rest })
  | none, .replicate :: rest => (.replicate, s.setHost { s.host with current := rest })

/-- ENGINE's next step: the micro-operation `phase` selects, if it has one (R172). -/
def engineMove (s : State) : Move × State :=
  if s.engineReady then (.word (.phase s.regs.phase.code), s) else (.nothing, s)

/-- With no turn left, what is under way goes on (R272); when that is both a pass and HOST's work, their order is a free
choice (R238; log 2). -/
def idleMove (s : State) : Move × State :=
  if s.engineReady && s.hostBusy then
    if Config.freeEngineFirst s.draws then engineMove s.drawn else hostMove s.drawn
  else if s.engineReady then engineMove s
  else hostMove s

/-- The next move, and the state with its turn taken from the script. A command or a pseudo-operation waits until HOST has
performed what it is in the middle of (R95). -/
def select (s : State) : Move × State :=
  match s.script with
  | [] => idleMove s
  | .command w :: rest => if s.hostBusy then hostMove s else (.word (.cmd w), s.setScript rest)
  | .hostOp o :: rest => if s.hostBusy then hostMove s else (.hostOp o, s.setScript rest)
  | .host :: rest => hostMove (s.setScript rest)
  | .finishHost :: rest => if s.hostBusy then hostMove s else (.nothing, s.setScript rest)
  | .tick :: rest => (.word (.tick 1), s.setScript rest)
  | .reset :: rest => (.word (.reset 1), s.setScript rest)
  | .engine :: rest => engineMove (s.setScript rest)
  | .run :: rest => if s.engineReady then engineMove s else (.nothing, s.setScript rest)

/-- A next state passed on; a fault or a refusal stays. -/
def mapNext (f : State → State) : Outcome → Outcome
  | .next s => .next (f s)
  | .fault e => .fault e
  | .refused e => .refused e

/-- A word at a port: the operation it selects is performed. A reserved command word is a `noop` without a defined
response (R98); a pin that is not asserted and an idle sequencer are no step. -/
def runWord (pw : PortWord) (s : State) : Outcome :=
  match decode pw with
  | .ok i => mapNext (State.hostNotes i) (exec i s)
  | .error (.reservedOpcode _) => .next s.respUndefined
  | .error .notAsserted => .next s
  | .error .phaseIdle => .next s
  | .error .phaseUnused => .refused .phaseUnused

/-- The move performed on the block and the host software. -/
def perform : Move → State → Outcome
  | .word pw, s => runWord pw s
  | .setallNext r, s => .next (setallWrite r.next r.value s)
  | .hostOp o, s => performOp o s
  | .replicate, s => replicateKept s
  | .keepZero, s => .next s.keepZero
  | .nothing, s => .next s

/-- One step of the machine: the next move, and the attached chain's reaction to the lines it moved (R71, R72; log 8). -/
def takeTurn (s : State) : Outcome := mapNext (chainReact s) (perform (select s).1 (select s).2)

/-- The state with a port word as the very next thing to be performed: the turn that presents it stands first in the
script, HOST is in the middle of nothing when it is a command, and the phase register holds the code when it is a phase
word (log 12). -/
def State.withPortWord (s : State) (pw : PortWord) : State :=
  match pw with
  | .cmd w => ((s.setScript (.command w :: s.script)).setSetall none).setHost { s.host with current := [] }
  | .tick _ => s.setScript (.tick :: s.script)
  | .reset _ => s.setScript (.reset :: s.script)
  | .phase c =>
    (s.setScript (.engine :: s.script)).setRegs { s.regs with phase := (Phase.ofCode c).getD s.regs.phase }

end Sys2Proof.Machine
end

