-- ==== Sys2Proof/Machine/Step.lean ====
section
/-! DEFINITION. The step function, and where the next operation is fetched from. -/

namespace Sys2Proof.Machine

/-- One step of the machine. -/
def step (s : State) : Host.Outcome State Fault Refusal := takeTurn s

/-- The state whose very next step performs a numbered word of the opcode table (log 11, log 12). -/
def State.withFetchWord (s : State) (nbits w : Nat) : State := s.withPortWord (tablePortWord nbits w)

end Sys2Proof.Machine
end

