-- ==== Sys2Proof/Machine/Pass.lean ====
section
/-! DEFINITION. The pass as a pure function of counter, buffer and configuration (R18, R184, R185), which the
micro-operations realise when no write lands during the pass. -/

namespace Sys2Proof.Machine

/-- `cmp_r` (R184): what the channels of register `r` are compared against in a pass that began with `counter = c`. -/
def passCmp (p : Params) (maxb c : BitVec 8) (r : Nat) : BitVec 8 :=
  if p.loadBalance then BitVec.ofNat 8 ((c.toNat + 8 * (p.nRegs - 1 - r)) % lbMod p maxb) else c

/-- `bit(i)` (R185): the bit shifted for channel `i`, `b` giving the buffer contents. -/
def passBit (p : Params) (maxb c : BitVec 8) (b : Nat → Byte) (i : Nat) : Bool :=
  compareBit p (b i) (passCmp p maxb c (i / 8))

/-- `PassBits(c, b)` (R185) in emission order, channel `NCH - 1` first (R68). -/
def passBits (p : Params) (maxb c : BitVec 8) (b : Nat → Byte) : List Bool :=
  ((List.range p.nch).map (passBit p maxb c b)).reverse

end Sys2Proof.Machine
end

