-- ==== Sys2Proof/Machine/Script.lean ====
section
/-! DEFINITION. The textual syntax of R102 and R103: one line of a script to the turns it stands for. Lines are lists of
characters. `STEP` and `RUN` are directives that say where ENGINE's own steps fall, no operations of the block. -/

namespace Sys2Proof.Machine

/-- What one line of a script says (R102, R103). -/
inductive ScriptLine where
  /-- A line that holds nothing but a comment. -/
  | blank
  /-- One host command (R93). -/
  | command (i : Instr)
  /-- One pseudo-instruction (R103). -/
  | pseudo (o : HostOp)
  /-- One TICK event. -/
  | tick
  /-- One RESET event. -/
  | reset
  /-- ENGINE performs `n` micro-operations, fewer if it reaches IDLE. -/
  | step (n : Nat)
  /-- ENGINE performs micro-operations until `phase = IDLE`. -/
  | run
deriving DecidableEq, Repr

/-- The turn in which a host command is presented: its word (R102). -/
def commandTurn (i : Instr) : List Turn :=
  match encode i with
  | .cmd w => [.command w]
  | _ => []

/-- The turns of a line: lines are performed in order, so HOST finishes a command or pseudo-instruction before the next
line (R102, R95; log 29). -/
def ScriptLine.turns : ScriptLine → List Turn
  | .blank => []
  | .command i => commandTurn i ++ [.finishHost]
  | .pseudo o => [.hostOp o, .finishHost]
  | .tick => [.tick]
  | .reset => [.reset]
  | .step n => List.replicate n .engine
  | .run => [.run]

/-- Leading spaces dropped. -/
def dropSpaces (cs : List Char) : List Char := cs.dropWhile (· == ' ')

/-- Leading and trailing spaces dropped. -/
def trimSpaces (cs : List Char) : List Char := (dropSpaces (dropSpaces cs).reverse).reverse

/-- The value of a digit in a base of at most 16. -/
def digitOf (base : Nat) (c : Char) : Option Nat :=
  let n := c.toNat
  let d :=
    if 48 ≤ n && n ≤ 57 then n - 48
    else if 97 ≤ n && n ≤ 102 then n - 87
    else if 65 ≤ n && n ≤ 70 then n - 55
    else 16
  if d < base then some d else none

/-- Digits to a number, the value of the digits before them given. -/
def digitsOf (base : Nat) : List Char → Nat → Option Nat
  | [], acc => some acc
  | c :: cs, acc =>
    match digitOf base c with
    | none => none
    | some d => digitsOf base cs (acc * base + d)

/-- An operand: decimal, or hexadecimal after `0x`, unsigned (R102). -/
def operandOf (cs : List Char) : Option Nat :=
  match cs with
  | [] => none
  | ['0', 'x'] => none
  | '0' :: 'x' :: ds => digitsOf 16 ds 0
  | ds => digitsOf 10 ds 0

/-- A list cut at its commas. -/
def commaParts : List Char → List (List Char)
  | [] => [[]]
  | c :: cs =>
    match c == ',', commaParts cs with
    | true, ps => [] :: ps
    | false, [] => [[c]]
    | false, p :: ps => (c :: p) :: ps

/-- All parts read, or nothing. -/
def allOperands : List (List Char) → Option (List Nat)
  | [] => some []
  | p :: ps =>
    match operandOf (trimSpaces p), allOperands ps with
    | some n, some ns => some (n :: ns)
    | _, _ => none

/-- The operands after a mnemonic, separated by commas (R102). -/
def operandsOf (cs : List Char) : Option (List Nat) :=
  if trimSpaces cs = [] then some [] else allOperands (commaParts cs)

/-- A byte operand of a pseudo-instruction (R142). -/
def byteOf (n : Nat) : Option Byte := if n < 256 then some (BitVec.ofNat 8 n) else none

/-- Byte operands, all of them. -/
def bytesOf : List Nat → Option (List Byte)
  | [] => some []
  | n :: ns =>
    match byteOf n, bytesOf ns with
    | some b, some bs => some (b :: bs)
    | _, _ => none

/-- A grouped write by its number of values (R142, R103). -/
def groupOf (n group : Nat) (vs : List Byte) (offset : Nat) : Option HostOp :=
  match n, vs with
  | 2, [v0, v1] => some (.setGroupOf2 group v0 v1 offset)
  | 3, [v0, v1, v2] => some (.setGroupOf3 group v0 v1 v2 offset)
  | 4, [v0, v1, v2, v3] => some (.setGroupOf4 group v0 v1 v2 v3 offset)
  | 5, [v0, v1, v2, v3, v4] => some (.setGroupOf5 group v0 v1 v2 v3 v4 offset)
  | _, _ => none

/-- The line `SETGROUPOFn group, v0, ..., offset`. -/
def groupLine (n : Nat) (ns : List Nat) : Option HostOp :=
  match ns with
  | [] => none
  | group :: rest =>
    match bytesOf rest.dropLast, rest.getLast? with
    | some vs, some offset => groupOf n group vs offset
    | _, _ => none

/-- A command, event or directive line by its mnemonic and operands; operands are cut to their fields (R102). -/
def plainLine (mnemonic : List Char) (ns : List Nat) : Option ScriptLine :=
  if mnemonic = ['S', 'T', 'A', 'R', 'T'] then
    match ns with
    | [freq, maxb] => some (.command (.start (BitVec.ofNat 16 freq) (BitVec.ofNat 8 maxb)))
    | _ => none
  else if mnemonic = ['S', 'T', 'O', 'P'] then
    match ns with
    | [] => some (.command .stop)
    | _ => none
  else if mnemonic = ['S', 'E', 'T', 'O', 'N', 'E'] then
    match ns with
    | [index, value] => some (.command (.setone (BitVec.ofNat 16 index) (BitVec.ofNat 8 value)))
    | _ => none
  else if mnemonic = ['S', 'E', 'T', 'A', 'L', 'L'] then
    match ns with
    | [value] => some (.command (.setall (BitVec.ofNat 8 value)))
    | _ => none
  else if mnemonic = ['G', 'E', 'T', 'O', 'N', 'E'] then
    match ns with
    | [index] => some (.command (.getone (BitVec.ofNat 16 index)))
    | _ => none
  else if mnemonic = ['T', 'I', 'C', 'K'] then
    match ns with
    | [] => some .tick
    | _ => none
  else if mnemonic = ['R', 'E', 'S', 'E', 'T'] then
    match ns with
    | [] => some .reset
    | _ => none
  else if mnemonic = ['S', 'T', 'E', 'P'] then
    match ns with
    | [n] => some (.step n)
    | _ => none
  else if mnemonic = ['R', 'U', 'N'] then
    match ns with
    | [] => some .run
    | _ => none
  else none

/-- A pseudo-instruction line by its mnemonic and operands (R103). -/
def pseudoLine (mnemonic : List Char) (ns : List Nat) : Option HostOp :=
  if mnemonic = ['S', 'E', 'T', 'P', 'I', 'N', 'G', 'R', 'O', 'U', 'P', 'I', 'N', 'G'] then
    match ns with
    | [grouping] => some (.setPinGrouping grouping)
    | _ => none
  else if mnemonic = ['S', 'E', 'T', 'G', 'R', 'O', 'U', 'P', 'O', 'F', '2'] then groupLine 2 ns
  else if mnemonic = ['S', 'E', 'T', 'G', 'R', 'O', 'U', 'P', 'O', 'F', '3'] then groupLine 3 ns
  else if mnemonic = ['S', 'E', 'T', 'G', 'R', 'O', 'U', 'P', 'O', 'F', '4'] then groupLine 4 ns
  else if mnemonic = ['S', 'E', 'T', 'G', 'R', 'O', 'U', 'P', 'O', 'F', '5'] then groupLine 5 ns
  else if mnemonic = ['S', 'E', 'T', 'R', 'G', 'B'] then
    match ns with
    | [channel, r, g, b, offset] =>
      match bytesOf [r, g, b] with
      | some [r', g', b'] => some (.setRgb channel r' g' b' offset)
      | _ => none
    | _ => none
  else if mnemonic = ['S', 'E', 'T', 'A', 'L', 'L', 'R', 'G', 'B'] then
    match bytesOf ns with
    | some [r, g, b] => some (.setAllRgb r g b)
    | _ => none
  else if mnemonic = ['S', 'E', 'T', 'H', 'S', 'V'] then
    match ns with
    | [channel, hue, sat, val, offset] =>
      match bytesOf [sat, val] with
      | some [sat', val'] => some (.setHsv channel hue sat' val' offset)
      | _ => none
    | _ => none
  else if mnemonic = ['S', 'E', 'T', 'A', 'L', 'L', 'H', 'S', 'V'] then
    match ns with
    | [hue, sat, val] =>
      match bytesOf [sat, val] with
      | some [sat', val'] => some (.setAllHsv hue sat' val')
      | _ => none
    | _ => none
  else if mnemonic = ['O', 'N', 'E', 'B', 'Y', 'O', 'N', 'E', 'S', 'L', 'O', 'W'] then
    match ns with
    | [] => some .oneByOneSlow
    | _ => none
  else if mnemonic = ['O', 'N', 'E', 'B', 'Y', 'O', 'N', 'E', 'F', 'A', 'S', 'T'] then
    match ns with
    | [] => some .oneByOneFast
    | _ => none
  else none

/-- One line of a script: comment cut off, mnemonic, operands (R102); `none` when it is no line of the syntax. -/
def parseLine (line : List Char) : Option ScriptLine :=
  let cs := trimSpaces (line.takeWhile (· != ';'))
  if cs = [] then some .blank
  else
    let mnemonic := cs.takeWhile (· != ' ')
    match operandsOf (cs.drop mnemonic.length) with
    | none => none
    | some ns =>
      match plainLine mnemonic ns with
      | some l => some l
      | none => (pseudoLine mnemonic ns).map .pseudo

/-- The turns of a script, its lines performed in order (R102). -/
def parseScript : List (List Char) → Option (List Turn)
  | [] => some []
  | l :: ls =>
    match parseLine l, parseScript ls with
    | some line, some ts => some (line.turns ++ ts)
    | _, _ => none

end Sys2Proof.Machine
end

