-- ==== Sys2Proof/WellFormed.lean ====
section
/-! DEFINITION. The checks on what is given to the model: the legal values of an instance's parameters (R8). An `Instr`
needs no check (Syntax.lean says why). The checks on a pseudo-operation's operands (R141, R149, R154) stand beside
its meaning, in Machine/HostSoftware.lean. -/

namespace Sys2Proof

/-- `N_REGS` is in 1 .. 8192 (R8, D9). -/
def Params.nRegsLegal (p : Params) : Bool := decide (1 ≤ p.nRegs ∧ p.nRegs ≤ 8192)

/-- `BASE_RATE` is at least 1 (R8, D10). -/
def Params.baseRateLegal (p : Params) : Bool := decide (1 ≤ p.baseRate)

/-- The parameters have legal values (R8). Parameters outside them are no instance of the block (log 3). -/
def Params.wellFormed (p : Params) : Bool := p.nRegsLegal && p.baseRateLegal

end Sys2Proof
end

