-- ==== Sys2Proof/Safety.lean ====
section
/-! DEFINITION. The terms the claims use: several steps in a row, what a part of the machine leaves alone, and the
invariant of the machine, assembled from the spec's own (R27, R30, R32, R34, R184, R49). -/

namespace Sys2Proof.Machine

/-- `n` steps of the machine as the host runs it, stopping at the first fault or refusal. -/
def steps (n : Nat) (s : State) : Outcome := Sys2Proof.core.run n s

/-- Only the registers may differ. -/
def State.sameButRegs (s t : State) : Prop :=
  t.params = s.params ∧ t.buf = s.buf ∧ t.setall = s.setall ∧ t.resp = s.resp ∧ t.chain = s.chain ∧ t.host = s.host
    ∧ t.script = s.script ∧ t.draws = s.draws

/-- Only the response port may differ (with the count of free values drawn for it), and the parts the caller names. Said of
`exec`, the chain's part is log 8: the step adds the chain's reaction. -/
def State.sameSurroundings (s t : State) : Prop :=
  t.params = s.params ∧ t.chain = s.chain ∧ t.host = s.host ∧ t.script = s.script

/-- The phases in which a channel is being shifted, where `idx` is meaningful (R34). -/
def Phase.shifting (ph : Phase) : Bool := decide (ph = .data ∨ ph = .clkLow ∨ ph = .clkHigh)

/-- The invariants of the registers. -/
structure RegsInv (p : Params) (r : Regs) : Prop where
  /-- R27: `busy = 1` if and only if `phase != IDLE`. -/
  guard : r.busy = true ↔ r.phase ≠ .idle
  /-- R32 (a): `counter <= maxb`. -/
  counter_le : r.counter.toNat ≤ r.maxb.toNat
  /-- R32 (c): `presc >= 1` whenever `enable = 1`, and it is at most 65536. -/
  presc_range : r.enable = true → 1 ≤ r.presc.toNat ∧ r.presc.toNat ≤ 65536
  /-- R32 (d): `1 <= pcount <= presc` whenever `enable = 1`. -/
  pcount_range : r.enable = true → 1 ≤ r.pcount.toNat ∧ r.pcount.toNat ≤ r.presc.toNat
  /-- R32 (e): `cmp <= maxb` whenever `busy = 1` and `LB_MOD256 = 0`. -/
  cmp_le : r.busy = true → p.lbMod256 = false → r.cmp.toNat ≤ r.maxb.toNat
  /-- R34: `idx` names a channel. -/
  idx_lt : r.idx.toNat < p.nch
  /-- R30, R210, R260: enabled only with the lines driven. -/
  enable_driven : r.enable = true → r.oe = true
  /-- R30, R170, R260: a pass runs only with the lines driven. -/
  pass_driven : r.busy = true → r.oe = true
  /-- R170 (d): a pass starts at the last channel, with the counter copied. -/
  pass_start : r.phase = .latchLow → r.idx.toNat = p.nch - 1 ∧ r.cmp = r.counter
  /-- R184: while a channel is shifted, `cmp` is that channel's comparison value of the pass. -/
  pass_cmp : r.phase.shifting = true → r.cmp = passCmp p r.maxb r.counter (r.idx.toNat / 8)
  /-- R34: a pass ends at channel 0. -/
  pass_last : r.phase = .latchHigh ∨ r.phase = .finish → r.idx = 0
  /-- R178: the latch line is low from P_LATCHLO to P_LATCHHI. -/
  latch_low : r.phase.shifting = true ∨ r.phase = .latchHigh → r.latch = false
  /-- R178: and high after P_LATCHHI. -/
  latch_high : r.phase = .finish → r.latch = true
  /-- R176: the clock line is low before P_CLKHI. -/
  clock_low : r.phase = .clkHigh → r.clock = false
  /-- R177: and high after the last P_CLKHI. -/
  clock_high : r.phase = .latchHigh ∨ r.phase = .finish → r.clock = true

/-- What HOST still does for its pseudo-operation, `kept` responses being in hand: a replication stands last and has
three responses by then (R152). -/
def actionsOk : Nat → List HostAction → Prop
  | _, [] => True
  | kept, .send _ :: as => actionsOk kept as
  | kept, .readBack _ :: as => actionsOk (kept + 1) as
  | kept, .replicate :: as => kept = 3 ∧ as = []

/-- The invariant of the machine. -/
structure State.Inv (s : State) : Prop where
  /-- R8: the parameters are legal. -/
  params : s.params.wellFormed = true
  /-- The registers' invariants. -/
  regs : RegsInv s.params s.regs
  /-- The buffer keeps its canonical form. -/
  buf_wf : s.buf.wf
  /-- R60: nothing is written outside the buffer. -/
  buf_in : ∀ c ∈ s.buf, c.1 < s.params.nch
  /-- R122: a SETALL under way has written its first slot and has a slot left. -/
  setall_next : ∀ r, s.setall = some r → 1 ≤ r.next ∧ r.next < s.params.nch
  /-- R70: the chain has `NCH` stages and outputs. -/
  chain_length : s.chain.sr.length = s.params.nch ∧ s.chain.out.length = s.params.nch
  /-- R141: `pinGrouping` is at least 1 once it is set. -/
  grouping_pos : s.host.pinGrouping ≠ some 0
  /-- R152: the host software's position in a pseudo-operation is a possible one. -/
  host_ok : s.host.keepResp = false ∧ actionsOk s.host.kept.length s.host.current
  /-- R152: a replication stands in a pseudo-operation that found `pinGrouping` set. -/
  grouping_set : .replicate ∈ s.host.current → s.host.pinGrouping ≠ none

end Sys2Proof.Machine
end

