-- ==== Sys2Proof/Certificates/Slice0/Obligations.lean ====
section
/-! DEFINITION. The statements for the provers. Each docstring names the rule of spec/ it formalises; where a clause rests
on a decision of the spec (D<n>) or on a log entry of this model, it says so. Throughout, a statement about `exec` speaks of
the block's own effect: that it leaves the attached chain as it is, is log 8 (the step adds the chain's reaction), and that
TICK and the micro-operations leave `resp`, is log 6. -/

open Sys2Proof Sys2Proof.Machine

/-! ### Encoding -/

/-- R104 and the vectors V-E1, V-E4, V-E5, V-E7, V-E9, V-E10, V-E12: words written out in the spec decode to the
operation they stand for; the pins and the phase codes of R94 and R99 likewise. -/
def Obligations.SpecWordsDecode : Prop :=
  decode (.cmd 0x0103E8FF) = .ok (.start 1000 255)
  ∧ decode (.cmd 0x02000000) = .ok .stop
  ∧ decode (.cmd 0x02FFFFFF) = .ok .stop
  ∧ decode (.cmd 0x030007C8) = .ok (.setone 7 200)
  ∧ decode (.cmd 0x04000000) = .ok (.setall 0)
  ∧ decode (.cmd 0x05000200) = .ok (.getone 2)
  ∧ decode (.cmd 0x00000000) = .error (.reservedOpcode 0)
  ∧ decode (.cmd 0x06000000) = .error (.reservedOpcode 6)
  ∧ decode (.tick 1) = .ok .tick
  ∧ decode (.reset 1) = .ok .reset
  ∧ decode (.phase 1) = .ok .pLatchlo
  ∧ decode (.phase 2) = .ok .pData
  ∧ decode (.phase 3) = .ok .pClklo
  ∧ decode (.phase 4) = .ok .pClkhi
  ∧ decode (.phase 5) = .ok .pLatchhi
  ∧ decode (.phase 6) = .ok .pFinish

/-- R91 to R94, R99: decoding an encoded operation gives it back, every operand at every value. -/
def Obligations.DecodeInvertsEncode : Prop :=
  ∀ i : Instr, decode (encode i) = .ok i

/-- R93, R94, R99 and spec/opcode_table.json: a word decodes to an operation of a row's mnemonic exactly when it matches
that row; so no word matches two rows, and a word that matches none is rejected. -/
def Obligations.DecodeFollowsTheOpcodeTable : Prop :=
  ∀ (pw : PortWord) (r : OpcodeRow), r ∈ opcodeTable →
    (r.selects pw = true ↔ ∃ i, decode pw = .ok i ∧ i.mnemonic = r.mnemonic)

/-- R91, R92, R98: encoding a decoded command gives the word back with the fields the command ignores cleared, so a word
is read as its operation in one way only and the ignored fields do not matter. -/
def Obligations.EncodeInvertsDecodeButForIgnoredFields : Prop :=
  ∀ (w : Word) (i : Instr), decode (.cmd w) = .ok i →
    encode i = .cmd (w &&& usedBits i)
    ∧ ∀ w' : Word, w' &&& usedBits i = w &&& usedBits i → decode (.cmd w') = .ok i

/-- R98 (the spec's decision D7): a command word whose `op` is not 0x01 to 0x05 is performed as `noop`: no state changes
and nothing is signalled; only the level of `resp` is open (log 6, log 16). -/
def Obligations.ReservedWordsChangeNothing : Prop :=
  ∀ (s : State) (w : Word) (rest : List Turn),
    s.script = .command w :: rest → s.hostBusy = false →
    cmdOp w ≠ 1 → cmdOp w ≠ 2 → cmdOp w ≠ 3 → cmdOp w ≠ 4 → cmdOp w ≠ 5 →
    ∃ t, step s = .next t ∧ t.regs = s.regs ∧ t.buf = s.buf ∧ t.setall = s.setall ∧ t.host = s.host
      ∧ t.params = s.params ∧ t.script = rest ∧ (s.regs.oe = true → t.chain = s.chain)

/-! ### Reset -/

/-- R40, R44, R47 (decisions D22, D23): after reset every register is 0 and the sequencer idle; no slot of the buffer has
a chosen value, each reads as its draw (log 4); nothing is under way. -/
def Obligations.ResetStateValues : Prop :=
  State.reset.regs.enable = false ∧ State.reset.regs.oe = false ∧ State.reset.regs.busy = false
  ∧ State.reset.regs.counter = 0 ∧ State.reset.regs.maxb = 0 ∧ State.reset.regs.presc = 0
  ∧ State.reset.regs.pcount = 0 ∧ State.reset.regs.phase = .idle ∧ State.reset.regs.idx = 0
  ∧ State.reset.regs.cmp = 0 ∧ State.reset.regs.data = false ∧ State.reset.regs.clock = false
  ∧ State.reset.regs.latch = false
  ∧ (∀ i, State.reset.memRead i = Config.powerUpByte i)
  ∧ State.reset.setall = none

/-- R260, R261 (decisions D22, D23): from any state RESET completes; every register is 0, the buffer keeps every slot and a
SETALL under way is dropped. `exec` leaves the chain to the step (log 8), where R260 makes it unknown
(ResetMakesTheChainUnknown); the host software is left alone (log 30). -/
def Obligations.ResetClearsRegistersAndKeepsTheBuffer : Prop :=
  ∀ s : State, ∃ t, exec .reset s = .next t
    ∧ t.regs = { enable := false, oe := false, busy := false, counter := 0, maxb := 0, presc := 0, pcount := 0,
                 phase := .idle, idx := 0, cmp := 0, data := false, clock := false, latch := false }
    ∧ (∀ a, t.memRead a = s.memRead a) ∧ t.buf = s.buf ∧ t.setall = none
    ∧ s.sameSurroundings t

/-- R260, R74 (decision D31): a reset assertion, at any point, releases the lines and the chain is unknown again: its
contents are a fresh draw (log 7). -/
def Obligations.ResetMakesTheChainUnknown : Prop :=
  ∀ (s : State) (rest : List Turn), s.script = .reset :: rest →
    ∃ t d, step s = .next t ∧ t.regs = Regs.reset ∧ t.chain = Chain.unknown s.params.nch d ∧ t.draws = d + 1
      ∧ t.setall = none ∧ t.buf = s.buf ∧ t.host = s.host ∧ t.script = rest

/-! ### Buffer commands -/

/-- R120: SETONE writes the one slot when the index is below `NCH`, and no slot otherwise; it always completes, and no
register, SETALL, chain or host software is touched. -/
def Obligations.SetoneWritesOneSlot : Prop :=
  ∀ (s : State) (index : BitVec 16) (value : Byte),
    ∃ t, exec (.setone index value) s = .next t
      ∧ (index.toNat < s.params.nch →
          t.memRead index.toNat = value ∧ ∀ a, a ≠ index.toNat → t.memRead a = s.memRead a)
      ∧ (s.params.nch ≤ index.toNat → t.buf = s.buf ∧ ∀ a, t.memRead a = s.memRead a)
      ∧ t.regs = s.regs ∧ t.setall = s.setall ∧ s.sameSurroundings t

/-- R122 (order: decision D24): the step that accepts SETALL completes, writes slot 0 alone, and leaves the rest of the
writes to HOST's next steps (log 9). -/
def Obligations.SetallWritesItsFirstSlot : Prop :=
  ∀ (s : State) (value : Byte),
    ∃ t, exec (.setall value) s = .next t
      ∧ t.memRead 0 = value ∧ (∀ a, a ≠ 0 → t.memRead a = s.memRead a)
      ∧ t.setall = (if 1 < s.params.nch then some ⟨1, value⟩ else none)
      ∧ t.regs = s.regs ∧ s.sameSurroundings t

/-- R122, R95: `NCH` uninterrupted HOST steps after a SETALL command every slot holds the value, no slot outside the
buffer and no register has changed, and the command is over. -/
def Obligations.SetallFillsTheBuffer : Prop :=
  ∀ (s : State) (value : Byte) (rest : List Turn),
    s.params.wellFormed = true → s.hostBusy = false →
    s.script = .command (cmdWord 0x04 0 value) :: (List.replicate (s.params.nch - 1) .host ++ rest) →
    ∃ t, steps s.params.nch s = .next t
      ∧ (∀ a, a < s.params.nch → t.memRead a = value)
      ∧ (∀ a, s.params.nch ≤ a → t.memRead a = s.memRead a)
      ∧ t.setall = none ∧ t.regs = s.regs ∧ t.host = s.host ∧ t.params = s.params ∧ t.script = rest

/-- R95, R122, R261: while a SETALL is under way no command word is performed; a step leaves the SETALL and the buffer as
they are, or performs the next iteration, or is a RESET that drops it. -/
def Obligations.SetallEndsByItsWritesOrByReset : Prop :=
  ∀ (s t : State) (r : SetallRun), s.setall = some r → step s = .next t →
    (∀ w, (select s).1 ≠ .word (.cmd w))
    ∧ ((t.setall = some r ∧ ∀ a, t.memRead a = s.memRead a)
      ∨ (t.setall = (if r.next + 1 < s.params.nch then some ⟨r.next + 1, r.value⟩ else none)
          ∧ t.memRead r.next = r.value ∧ (∀ a, a ≠ r.next → t.memRead a = s.memRead a) ∧ t.regs = s.regs)
      ∨ (t.setall = none ∧ t.regs = Regs.reset ∧ ∀ a, t.memRead a = s.memRead a))

/-- R124 (decision D25): GETONE answers the slot, or 0x00 when the index is out of range, and changes nothing but `resp`. -/
def Obligations.GetoneReadsOneSlot : Prop :=
  ∀ (s : State) (index : BitVec 16),
    (index.toNat < s.params.nch → exec (.getone index) s = .next { s with resp := s.memRead index.toNat })
    ∧ (s.params.nch ≤ index.toNat → exec (.getone index) s = .next { s with resp := 0 })

/-- R125: a buffer command neither writes a register nor depends on one: with other registers it does the same. That the
free level of `resp` is then the same too is log 23. -/
def Obligations.BufferCommandsIgnoreTheRegisters : Prop :=
  ∀ (i : Instr), ((∃ index value, i = .setone index value) ∨ (∃ value, i = .setall value) ∨ ∃ index, i = .getone index) →
    ∀ (s : State) (r : Regs), exec i (s.setRegs r) = mapNext (fun t => t.setRegs r) (exec i s)

/-- R31, R17 (decision D6): the response of GETONE depends on the buffer and the parameters alone, so no register and no
position of a pass can be read by the host. That slots written in neither state read alike is log 4. -/
def Obligations.ResponsesRevealTheBufferAlone : Prop :=
  ∀ (s s' : State) (index : BitVec 16), s'.params = s.params → s'.buf = s.buf →
    ∃ t t', exec (.getone index) s = .next t ∧ exec (.getone index) s' = .next t' ∧ t'.resp = t.resp

/-! ### START and STOP -/

/-- R210 (atomicity D20, countdown D13, division D10): START with no pass in progress completes with the ten register
writes, and leaves `LATCH`, `idx`, `cmp`, the buffer and the rest as they are. -/
def Obligations.StartConfiguresAndEnables : Prop :=
  ∀ (s : State) (freq : BitVec 16) (maxb : Byte), s.regs.busy = false →
    ∃ t, exec (.start freq maxb) s = .next t
      ∧ t.regs = { s.regs with oe := true, clock := false, data := false, maxb := maxb, presc := t.regs.presc,
                               pcount := t.regs.presc, counter := 0, busy := false, phase := .idle, enable := true }
      ∧ t.regs.presc.toNat = freq.toNat / s.params.baseRate + 1
      ∧ (∀ a, t.memRead a = s.memRead a) ∧ t.setall = s.setall ∧ s.sameSurroundings t

/-- R211, R232 (U1, decision D20; log 13): START while a pass is in progress is refused. -/
def Obligations.StartDuringAPassIsRefused : Prop :=
  ∀ (s : State) (freq : BitVec 16) (maxb : Byte), s.regs.busy = true →
    exec (.start freq maxb) s = .refused .startWhileBusy

/-- R213 (decision D21): STOP completes in every state and writes `enable` only. -/
def Obligations.StopDisablesAndNothingElse : Prop :=
  ∀ s : State, ∃ t, exec .stop s = .next t
    ∧ t.regs = { s.regs with enable := false }
    ∧ (∀ a, t.memRead a = s.memRead a) ∧ t.setall = s.setall ∧ s.sameSurroundings t

/-- R172, R213: neither which move is next nor what a micro-operation does depends on `enable`, and no micro-operation
changes it; ENGINE's turn in a pass presents the phase's word whatever `enable` is. So STOP never aborts a pass: the pass
goes on as it would have without it. -/
def Obligations.StopNeverAbortsAPass : Prop :=
  (∀ (s : State) (e : Bool),
    select (s.setRegs { s.regs with enable := e })
      = ((select s).1, (select s).2.setRegs { (select s).2.regs with enable := e }))
  ∧ (∀ (s : State) (rest : List Turn) (e : Bool), s.script = .engine :: rest → s.regs.phase ≠ .idle →
      (select (s.setRegs { s.regs with enable := e })).1 = .word (.phase s.regs.phase.code))
  ∧ ∀ (i : Instr), i ∈ [Instr.pLatchlo, .pData, .pClklo, .pClkhi, .pLatchhi, .pFinish] →
    ∀ (s : State) (e : Bool),
      exec i (s.setRegs { s.regs with enable := e })
        = mapNext (fun t => t.setRegs { t.regs with enable := e }) (exec i s)

/-- R216: START, STOP, START with no pass in progress leaves the registers a single START with the second operands leaves
(those START does not write carried over), and the same buffer. -/
def Obligations.RestartLeavesWhatOneStartLeaves : Prop :=
  ∀ (s : State) (f₁ f₂ : BitVec 16) (m₁ m₂ : Byte), s.regs.busy = false →
    ∃ a b c d, exec (.start f₁ m₁) s = .next a ∧ exec .stop a = .next b ∧ exec (.start f₂ m₂) b = .next c
      ∧ exec (.start f₂ m₂) s = .next d
      ∧ c.regs = d.regs ∧ c.buf = d.buf ∧ c.setall = d.setall ∧ c.chain = d.chain

/-- R214: `maxb` and `presc` change in no step but one that performs a START or a RESET. -/
def Obligations.ConfigurationChangesOnlyByStartOrReset : Prop :=
  ∀ s t : State, step s = .next t → (t.regs.maxb ≠ s.regs.maxb ∨ t.regs.presc ≠ s.regs.presc) →
    ∃ pw u, select s = (.word pw, u)
      ∧ (decode pw = .ok .reset ∨ ∃ freq maxb, decode pw = .ok (.start freq maxb))

/-! ### TICK -/

/-- R170 (order of the tests D14, D34): the four cases of TICK, each completing; every register it does not name, the
buffer and everything else is unchanged. -/
def Obligations.TickHandlerCases : Prop :=
  ∀ s : State,
    (s.regs.enable = false → exec .tick s = .next s)
    ∧ (s.regs.enable = true → s.regs.busy = true → exec .tick s = .next s)
    ∧ (s.regs.enable = true → s.regs.busy = false → s.regs.pcount - 1 ≠ 0#17 →
        exec .tick s = .next { s with regs := { s.regs with pcount := s.regs.pcount - 1 } })
    ∧ (s.regs.enable = true → s.regs.busy = false → s.regs.pcount - 1 = 0#17 →
        exec .tick s = .next { s with regs :=
          { s.regs with pcount := s.regs.presc, busy := true, cmp := s.regs.counter,
                        idx := BitVec.ofNat 16 (s.params.nch - 1), phase := .latchLow } })

/-- R171: a tick that arrives while the guard is set changes nothing at all, whatever `enable` is. -/
def Obligations.DroppedTickChangesNothing : Prop :=
  ∀ s : State, s.regs.busy = true → exec .tick s = .next s

/-- R189, R170 (b): any number of ticks during a pass is dropped one by one and leaves no trace: after them the machine is
as it was, but for the turns they took. -/
def Obligations.OverrunTicksLeaveNoTrace : Prop :=
  ∀ (s : State) (k : Nat) (rest : List Turn), s.regs.busy = true → s.regs.oe = true →
    s.script = List.replicate k .tick ++ rest → steps k s = .next { s with script := rest }

/-- R183: with no tick dropped, `pcount` ticks lead to a pass: each of the first counts down by one, and the last begins
the pass and reloads the countdown. -/
def Obligations.PrescalerCountsTicksToAPass : Prop :=
  ∀ (s : State) (rest : List Turn), s.regs.enable = true → s.regs.busy = false → 1 ≤ s.regs.pcount.toNat →
    s.script = List.replicate s.regs.pcount.toNat .tick ++ rest →
    (∀ k, k < s.regs.pcount.toNat → ∃ t, steps k s = .next t ∧ t.buf = s.buf
        ∧ t.regs = { s.regs with pcount := BitVec.ofNat 17 (s.regs.pcount.toNat - k) })
    ∧ ∃ t, steps s.regs.pcount.toNat s = .next t ∧ t.buf = s.buf ∧ t.script = rest
        ∧ t.regs = { s.regs with pcount := s.regs.presc, busy := true, cmp := s.regs.counter,
                                 idx := BitVec.ofNat 16 (s.params.nch - 1), phase := .latchLow }

/-- R26, R182: a pass begins in no step but an accepted TICK with the block enabled and no pass in progress. -/
def Obligations.OnlyAnAcceptedTickBeginsAPass : Prop :=
  ∀ s t : State, step s = .next t → s.regs.busy = false → t.regs.busy = true →
    (∃ u, select s = (.word (.tick 1), u)) ∧ s.regs.enable = true ∧ t.regs.phase = .latchLow
      ∧ t.regs.counter = s.regs.counter

/-! ### ENGINE -/

/-- R173: P_LATCHLO completes and writes `LATCH` and `phase` alone. -/
def Obligations.LatchLowEffect : Prop :=
  ∀ s : State, exec .pLatchlo s = .next { s with regs := { s.regs with latch := false, phase := .data } }

/-- R174 (one step: D16), R69: P_DATA completes, reading channel `idx` and driving the data line with the comparison's
bit; it writes `DATA` and `phase` alone. -/
def Obligations.DataStepEffect : Prop :=
  ∀ s : State, s.regs.idx.toNat < s.params.nch →
    exec .pData s = .next { s with regs := { s.regs with
      data := (if s.params.invert = true then decide ((s.memRead s.regs.idx.toNat).toNat ≤ s.regs.cmp.toNat)
               else decide ((s.memRead s.regs.idx.toNat).toNat > s.regs.cmp.toNat)),
      phase := .clkLow } }

/-- R60, R13, R34 (log 14): in a state where `idx` names no slot, which no run reaches, P_DATA has no address to read
and the machine stops. -/
def Obligations.DataStepOutsideTheBufferFaults : Prop :=
  ∀ s : State, s.params.nch ≤ s.regs.idx.toNat → exec .pData s = .fault (.slotOutside s.regs.idx.toNat)

/-- R176: P_CLKLO completes and writes `CLOCK` and `phase` alone. -/
def Obligations.ClockLowEffect : Prop :=
  ∀ s : State, exec .pClklo s = .next { s with regs := { s.regs with clock := false, phase := .clkHigh } }

/-- R177 (place of the offset D17, its modulus D18): P_CLKHI completes; it raises the clock, adds the load-balance offset
at a register boundary, and goes on to the next channel or to the latch. The chain's shift is the step's (log 8). -/
def Obligations.ClockHighEffect : Prop :=
  ∀ (s : State) (cmp' : BitVec 8),
    cmp' = (if s.params.loadBalance = true ∧ s.regs.idx.toNat % 8 = 0 then
        BitVec.ofNat 8 ((s.regs.cmp.toNat + 8) % (if s.params.lbMod256 = true then 256 else s.regs.maxb.toNat + 1))
      else s.regs.cmp) →
    (s.regs.idx = 0#16 →
      exec .pClkhi s = .next { s with regs := { s.regs with clock := true, cmp := cmp', phase := .latchHigh } })
    ∧ (s.regs.idx ≠ 0#16 →
      exec .pClkhi s = .next { s with regs :=
        { s.regs with clock := true, cmp := cmp', idx := s.regs.idx - 1, phase := .data } })

/-- R178: P_LATCHHI completes and writes `LATCH` and `phase` alone. That the chain presents its stages is the step's (log 8;
OutputsChangeOnlyAtTheLatchEdge). -/
def Obligations.LatchHighEffect : Prop :=
  ∀ s : State, exec .pLatchhi s = .next { s with regs := { s.regs with latch := true, phase := .finish } }

/-- R179 (one step: D19): P_FINISH completes; the counter advances or wraps, the guard is released and the sequencer is
idle. -/
def Obligations.FinishEffect : Prop :=
  ∀ s : State, exec .pFinish s = .next { s with regs :=
    { s.regs with counter := (if s.regs.counter.toNat ≥ s.regs.maxb.toNat then 0 else s.regs.counter + 1),
                  busy := false, phase := .idle } }

/-- R192, R61: no micro-operation writes the buffer, `maxb`, `presc`, `pcount`, `enable` or `oe`, or anything outside the
registers; the chain's reaction is the step's (log 8), and that `resp` stays is log 6. -/
def Obligations.PassStepsLeaveTheRestAlone : Prop :=
  ∀ (i : Instr), i ∈ [Instr.pLatchlo, .pData, .pClklo, .pClkhi, .pLatchhi, .pFinish] →
    ∀ s t : State, exec i s = .next t →
      (∀ a, t.memRead a = s.memRead a) ∧ s.sameButRegs t
      ∧ t.regs.maxb = s.regs.maxb ∧ t.regs.presc = s.regs.presc ∧ t.regs.pcount = s.regs.pcount
      ∧ t.regs.enable = s.regs.enable ∧ t.regs.oe = s.regs.oe

/-- R69: the polarity of the bit follows the instance's flag, and the two polarities are exact complements for every value
and counter. -/
def Obligations.PolarityFollowsTheInvertFlag : Prop :=
  ∀ (p q : Params) (v c : Byte), p.invert = false → q.invert = true →
    compareBit p v c = decide (v.toNat > c.toNat) ∧ compareBit q v c = decide (v.toNat ≤ c.toNat)
    ∧ compareBit q v c = !compareBit p v c

/-- R175: with the flag off, a zero channel is never on, 255 is on but against 255, equal is off, and one more is on. -/
def Obligations.ComparisonEdgeValues : Prop :=
  ∀ (p : Params), p.invert = false →
    (∀ c, compareBit p 0 c = false) ∧ (∀ c : Byte, compareBit p 255 c = decide (c ≠ 255))
    ∧ (∀ c, compareBit p c c = false) ∧ ∀ c : Byte, c ≠ 255 → compareBit p (c + 1) c = true

/-- R180: starting from 0, the counter after `k` passes is `k` modulo `maxb + 1`: each value once in a period, in order,
never `maxb + 1`. -/
def Obligations.CounterRunsThroughThePeriod : Prop :=
  ∀ (maxb : BitVec 8) (k : Nat), ((advanceCounter maxb)^[k] 0).toNat = k % (maxb.toNat + 1)

/-! ### The step -/

/-- A step performs the operation that the selected word decodes to, on the state with its turn taken; around it the step
adds what the host software notes (R140, R152) and the chain's reaction to the lines (R71, R72). -/
def Obligations.StepPerformsTheSelectedWord : Prop :=
  ∀ (s u : State) (pw : PortWord) (i : Instr), select s = (.word pw, u) → decode pw = .ok i →
    step s = mapNext (chainReact s) (mapNext (State.hostNotes i) (exec i u))

/-- R95, R96, R97, R172: a turn presents its word at its port; while HOST is in the middle of something a command turn stays
first in the script and HOST goes on with that (R95 says so of a SETALL; of a pseudo-operation it is log 10); ENGINE's word
is its phase code, and with `phase = IDLE` it has no step. -/
def Obligations.TurnsPresentTheirWords : Prop :=
  ∀ (s : State) (rest : List Turn),
    (∀ w, s.script = .command w :: rest → s.hostBusy = false → select s = (.word (.cmd w), { s with script := rest }))
    ∧ (∀ w, s.script = .command w :: rest → s.hostBusy = true →
        select s = hostMove s ∧ (select s).1 ≠ .nothing ∧ (select s).2.script = s.script)
    ∧ (s.script = .tick :: rest → select s = (.word (.tick 1), { s with script := rest }))
    ∧ (s.script = .reset :: rest → select s = (.word (.reset 1), { s with script := rest }))
    ∧ (s.script = .engine :: rest → s.regs.phase ≠ .idle →
        select s = (.word (.phase s.regs.phase.code), { s with script := rest }))
    ∧ (s.script = .engine :: rest → s.regs.phase = .idle → select s = (.nothing, { s with script := rest }))

/-- R26, R28, R30 (decision D5 for `oe`): `enable` is set by START alone and cleared by STOP and RESET alone, `oe` is set
by START alone and cleared by RESET alone, and the guard is cleared by P_FINISH and RESET alone. -/
def Obligations.StatusBitsChangeOnlyAsListed : Prop :=
  ∀ s t : State, step s = .next t →
    (s.regs.enable = false → t.regs.enable = true →
        ∃ pw u freq maxb, select s = (.word pw, u) ∧ decode pw = .ok (.start freq maxb))
    ∧ (s.regs.enable = true → t.regs.enable = false →
        ∃ pw u, select s = (.word pw, u) ∧ (decode pw = .ok .stop ∨ decode pw = .ok .reset))
    ∧ (s.regs.oe = false → t.regs.oe = true →
        ∃ pw u freq maxb, select s = (.word pw, u) ∧ decode pw = .ok (.start freq maxb))
    ∧ (s.regs.oe = true → t.regs.oe = false → ∃ pw u, select s = (.word pw, u) ∧ decode pw = .ok .reset)
    ∧ (s.regs.busy = true → t.regs.busy = false →
        ∃ pw u, select s = (.word pw, u) ∧ (decode pw = .ok .pFinish ∨ decode pw = .ok .reset))

/-- R60, R61, R67, R120, R122, R192, R260: a slot takes another value in no step but a SETONE of that slot, the step that
accepts a SETALL, which writes slot 0 (that it is this step: log 9; the order of the slots: decision D24), or the
iteration of a SETALL under way that has come to it; it then holds the value written. -/
def Obligations.SlotsChangeOnlyByBufferWrites : Prop :=
  ∀ (s t : State) (a : Nat), step s = .next t → t.memRead a ≠ s.memRead a →
    (∃ pw u index value, select s = (.word pw, u) ∧ decode pw = .ok (.setone index value)
        ∧ index.toNat = a ∧ a < s.params.nch ∧ t.memRead a = value)
    ∨ (∃ pw u value, select s = (.word pw, u) ∧ decode pw = .ok (.setall value) ∧ a = 0 ∧ t.memRead a = value)
    ∨ (∃ r, s.setall = some r ∧ (select s).1 = .setallNext r ∧ r.next = a ∧ t.memRead a = r.value)

/-- The invariant (R27, R30, R32, R34, R184) holds right after reset. -/
def Obligations.ResetMeetsTheInvariant : Prop := State.reset.Inv

/-- Every step, from every state that meets the invariant, keeps it: the guard is set exactly while a pass is in progress
(R27), counter and countdown stay in range (R32), `idx` names a channel (R34), `cmp` is the comparison value of the
channel's register (R184), the lines have the levels of their phase (R49), the buffer keeps its canonical form. -/
def Obligations.StepKeepsTheInvariant : Prop :=
  ∀ s t : State, s.Inv → step s = .next t → t.Inv

/-- R230, R231: from a state that meets the invariant no step faults. -/
def Obligations.StepNeverFaults : Prop :=
  ∀ (s : State) (e : Fault), s.Inv → step s ≠ .fault e

/-- R232, R211, and U11, U12, U17, U18 for the host software (log 13, log 17): from a state that meets the invariant a step
is refused only when it is a START during a pass, or begins a pseudo-operation the spec gives no meaning: SETPINGROUPING 0;
a grouped or colour write before SETPINGROUPING; a colour of a hue of 360 or more; a name without an expansion. -/
def Obligations.RefusalsAreTheSpecsGaps : Prop :=
  ∀ (s : State) (e : Refusal), s.Inv → step s = .refused e →
    (e = .startWhileBusy ∧ s.regs.busy = true
      ∧ ∃ w freq maxb, (select s).1 = .word (.cmd w) ∧ decode (.cmd w) = .ok (.start freq maxb))
    ∨ ∃ o, (select s).1 = .hostOp o ∧
      ((e = .groupingZero ∧ o = .setPinGrouping 0)
      ∨ (e = .groupingUnset ∧ s.host.pinGrouping = none
          ∧ (∀ grouping, o ≠ .setPinGrouping grouping) ∧ o ≠ .oneByOneSlow ∧ o ≠ .oneByOneFast)
      ∨ (e = .hueOutOfRange ∧ ∃ hue sat val, 360 ≤ hue
          ∧ (o = .setAllHsv hue sat val ∨ ∃ channel offset, o = .setHsv channel hue sat val offset))
      ∨ (e = .noExpansion ∧ (o = .oneByOneSlow ∨ o = .oneByOneFast)))

/-! ### The pass and the chain -/

/-- R184, R185: in every state that meets the invariant, whatever was written during the pass, P_DATA drives the bit the
pure pass function gives channel `idx` for the counter the pass began with and the value the slot holds now. -/
def Obligations.DataStepDrivesThePassBit : Prop :=
  ∀ s : State, s.Inv → s.regs.phase = .data →
    ∃ t, exec .pData s = .next t
      ∧ t.regs.data = passBit s.params s.regs.maxb s.regs.counter s.memRead s.regs.idx.toNat

/-- R181, R185, R186, R73: from the start of a pass, `3 * NCH + 3` steps of ENGINE alone present on the chain's outputs
exactly the bits of the pure pass function, channel `i` on output `i`; the counter has advanced, the guard is released,
the lines stand as R48 says, and the buffer and the rest of the machine are as they were (that `resp` is: log 6). -/
def Obligations.PassPresentsItsFrame : Prop :=
  ∀ (s : State) (rest : List Turn), s.Inv → s.regs.phase = .latchLow →
    s.script = List.replicate (3 * s.params.nch + 3) .engine ++ rest →
    ∃ t, steps (3 * s.params.nch + 3) s = .next t
      ∧ t.chain.out = (List.range s.params.nch).map (passBit s.params s.regs.maxb s.regs.counter s.memRead)
      ∧ t.regs = { s.regs with
          busy := false, phase := .idle, idx := 0, cmp := t.regs.cmp, clock := true, latch := true,
          counter := advanceCounter s.regs.maxb s.regs.counter,
          data := passBit s.params s.regs.maxb s.regs.counter s.memRead 0 }
      ∧ t.buf = s.buf ∧ t.setall = s.setall ∧ t.resp = s.resp ∧ t.host = s.host ∧ t.params = s.params ∧ t.script = rest

/-- R68, R71, R73: bits shifted in one after another stand in the stages with the first one farthest from the data input;
so of a pass, emitted from channel `NCH - 1` down, stage `i` holds channel `i`'s bit. The outputs do not move. -/
def Obligations.ChainHoldsTheBitsInWireOrder : Prop :=
  ∀ (c : Chain) (bits : List Bool), bits.length = c.sr.length →
    (bits.foldl Chain.shift c).sr = bits.reverse ∧ (bits.foldl Chain.shift c).out = c.out

/-- R72, R186, R76: with the lines driven, the outputs change in no step but P_LATCHHI's rising latch edge, and then show
the stages as they stood. -/
def Obligations.OutputsChangeOnlyAtTheLatchEdge : Prop :=
  ∀ s t : State, step s = .next t → s.regs.oe = true → t.regs.oe = true → t.chain.out ≠ s.chain.out →
    (∃ u, select s = (.word (.phase 5), u)) ∧ s.regs.latch = false ∧ t.regs.latch = true
      ∧ t.chain.out = s.chain.sr ∧ t.chain.sr = s.chain.sr

/-- R187: over the `maxb + 1` counter values of a period a channel holding `v` is on in exactly `min(v, maxb + 1)` passes,
and with the flag inverted in the others; with load balancing this needs the default modulus (D18). -/
def Obligations.DutyCycleLaw : Prop :=
  ∀ (p : Params) (maxb : BitVec 8) (b : Nat → Byte) (i : Nat),
    p.loadBalance = false ∨ p.lbMod256 = false →
    ((List.range (maxb.toNat + 1)).filter (fun c => passBit p maxb (BitVec.ofNat 8 c) b i)).length
      = if p.invert = true then maxb.toNat + 1 - min (b i).toNat (maxb.toNat + 1) else min (b i).toNat (maxb.toNat + 1)

/-- R191: with `LB_MOD256 = 1` the law fails for a register that is not shifted first: its example, two registers,
`maxb = 15`, every slot 4, where no channel of register 0 is on in any pass. -/
def Obligations.OtherModulusBreaksTheDutyCycle : Prop :=
  ∀ (p : Params) (b : Nat → Byte), p.nRegs = 2 → p.loadBalance = true → p.lbMod256 = true → p.invert = false →
    (∀ i, b i = 4) → ∀ c : BitVec 8, c.toNat ≤ 15 → ∀ i, i < 8 → passBit p 15 c b i = false

/-! ### The host software -/

/-- R141 (U11): SETPINGROUPING sets the host variable and sends no command, for every grouping of at least 1; 0 is
refused. -/
def Obligations.SetPinGroupingSetsTheVariable : Prop :=
  ∀ (s : State) (grouping : Nat),
    (1 ≤ grouping → performOp (.setPinGrouping grouping) s
        = .next { s with host := { s.host with pinGrouping := some grouping } })
    ∧ (grouping = 0 → performOp (.setPinGrouping grouping) s = .refused .groupingZero)

/-- R142, R144: a grouped write sends a SETONE for each of its values, at `base`, `base + pinGrouping`, ..., all of them
inside the buffer, when the last target is; otherwise it sends no command. -/
def Obligations.GroupedWritesAllOrNothing : Prop :=
  ∀ (p : Params) (grouping group offset base : Nat) (vs : List Byte), p.wellFormed = true → 1 ≤ grouping → vs ≠ [] →
    base = group + (vs.length - 1) * grouping * (group / grouping) + offset →
    (p.nch ≤ base + (vs.length - 1) * grouping → groupWrites p grouping group vs offset = [])
    ∧ (base + (vs.length - 1) * grouping < p.nch →
        (groupWrites p grouping group vs offset).length = vs.length
        ∧ ∀ j v, vs[j]? = some v → ∃ w index, (groupWrites p grouping group vs offset)[j]? = some (.send w)
            ∧ decode (.cmd w) = .ok (.setone index v) ∧ index.toNat = base + j * grouping ∧ index.toNat < p.nch)

/-- R156, R6, R152: beginning a pseudo-operation, or the second half of SETALLHSV, changes nothing but the host software (that
it is a step in which nothing reaches the block: log 30), and every command it adds is a SETONE of a slot of the buffer; and
a word HOST presents for a pseudo-operation is one of those it holds, or a GETONE. -/
def Obligations.HostSoftwareReachesTheBufferOnly : Prop :=
  (∀ s t : State, s.params.wellFormed = true → ((∃ o, performOp o s = .next t) ∨ replicateKept s = .next t) →
    t.regs = s.regs ∧ t.buf = s.buf ∧ t.setall = s.setall ∧ t.chain = s.chain ∧ t.resp = s.resp
    ∧ ∀ w, .send w ∈ t.host.current → .send w ∈ s.host.current
        ∨ ∃ index value, decode (.cmd w) = .ok (.setone index value) ∧ index.toNat < s.params.nch)
  ∧ ∀ (s : State) (pw : PortWord), (hostMove s).1 = .word pw →
      ∃ w, pw = .cmd w ∧ (.send w ∈ s.host.current ∨ ∃ index, decode (.cmd w) = .ok (.getone index))

/-- R146: the scale is `floor(c * swMaxb / 256)`; 0 stays 0, 255 becomes `swMaxb - 1`, and no result exceeds 254. -/
def Obligations.ScaleLaw : Prop :=
  ∀ m c : Byte, (scale m c).toNat = c.toNat * m.toNat / 256 ∧ scale m 0 = 0
    ∧ (scale m 255).toNat = m.toNat - 1 ∧ (scale m c).toNat ≤ 254

/-- R149, R150 (the table and the interpolation: general knowledge, G2; log 19), U12: every hue below 360 has a colour, each
component of which lies between `bottom` and `top`; no other hue has one. -/
def Obligations.HsvComponentsLieInRange : Prop :=
  ∀ (hue : Nat) (sat val : Byte),
    (360 ≤ hue → hsvToRgb hue sat val = none)
    ∧ (hue < 360 → ∃ r g b, hsvToRgb hue sat val = some (r, g, b)
        ∧ ∀ x, x = r ∨ x = g ∨ x = b → hsvBottom sat val ≤ x.toNat ∧ x.toNat ≤ val.toNat)
end

