-- ==== Sys2Proof/Laws/Decode.lean ====
section
/-! SUPPORT. The command word and its fields (R91): each field of an assembled word is what was put in, and a word is its
fields. -/

namespace Sys2Proof

/-- An assembled word as a number (R91). -/
theorem cmdWord_toNat (op : BitVec 8) (a : BitVec 16) (d : BitVec 8) :
    (cmdWord op a d).toNat = op.toNat * 2 ^ 24 + a.toNat * 2 ^ 8 + d.toNat := by
  have h : (cmdWord op a d).toNat = (op ++ a ++ d : BitVec (8 + 16 + 8)).toNat := rfl
  have h2 := a.isLt
  have h3 := d.isLt
  rw [h, BitVec.toNat_append, BitVec.toNat_append, ← Nat.shiftLeft_add_eq_or_of_lt h2,
    ← Nat.shiftLeft_add_eq_or_of_lt h3, Nat.shiftLeft_eq, Nat.shiftLeft_eq]
  omega

theorem cmdOp_toNat (w : Word) : (cmdOp w).toNat = w.toNat / 2 ^ 24 % 2 ^ 8 := by
  simp [cmdOp, Nat.shiftRight_eq_div_pow]

theorem cmdA_toNat (w : Word) : (cmdA w).toNat = w.toNat / 2 ^ 8 % 2 ^ 16 := by
  simp [cmdA, Nat.shiftRight_eq_div_pow]

theorem cmdD_toNat (w : Word) : (cmdD w).toNat = w.toNat % 2 ^ 8 := by
  simp [cmdD]

theorem cmdOp_cmdWord (op : BitVec 8) (a : BitVec 16) (d : BitVec 8) : cmdOp (cmdWord op a d) = op := by
  apply BitVec.eq_of_toNat_eq
  have h1 := op.isLt
  have h2 := a.isLt
  have h3 := d.isLt
  rw [cmdOp_toNat, cmdWord_toNat]
  omega

theorem cmdA_cmdWord (op : BitVec 8) (a : BitVec 16) (d : BitVec 8) : cmdA (cmdWord op a d) = a := by
  apply BitVec.eq_of_toNat_eq
  have h2 := a.isLt
  have h3 := d.isLt
  rw [cmdA_toNat, cmdWord_toNat]
  omega

theorem cmdD_cmdWord (op : BitVec 8) (a : BitVec 16) (d : BitVec 8) : cmdD (cmdWord op a d) = d := by
  apply BitVec.eq_of_toNat_eq
  have h3 := d.isLt
  rw [cmdD_toNat, cmdWord_toNat]
  omega

/-- A word is its three fields (R91). -/
theorem cmdWord_fields (w : Word) : cmdWord (cmdOp w) (cmdA w) (cmdD w) = w := by
  apply BitVec.eq_of_toNat_eq
  have h := w.isLt
  rw [cmdWord_toNat, cmdOp_toNat, cmdA_toNat, cmdD_toNat]
  omega

/-- A mask of whole fields keeps those fields and clears the others. -/
theorem cmdWord_and (o o' : BitVec 8) (a a' : BitVec 16) (d d' : BitVec 8) :
    cmdWord o a d &&& cmdWord o' a' d' = cmdWord (o &&& o') (a &&& a') (d &&& d') := by
  have h : (o ++ a ++ d : BitVec (8 + 16 + 8)) &&& (o' ++ a' ++ d') = (o &&& o') ++ (a &&& a') ++ (d &&& d') := by
    rw [BitVec.and_append, BitVec.and_append]
  exact h

/-- A word on the command port selects one of the five host commands, or none (R93, R98). -/
theorem decodeCmd_cases {w : Word} {i : Instr} (h : decode (.cmd w) = .ok i) :
    (∃ freq maxb, i = .start freq maxb) ∨ i = .stop ∨ (∃ index value, i = .setone index value)
      ∨ (∃ value, i = .setall value) ∨ ∃ index, i = .getone index := by
  simp only [decode, decodeCmd] at h
  repeat' split at h
  all_goals cases h
  all_goals simp

end Sys2Proof
end

