-- ==== Sys2Proof/Laws/State.lean ====
section
/-! SUPPORT. One lemma for each field after each update of the state, so that no proof unfolds an update. -/

namespace Sys2Proof.Machine

variable (s : State)

@[simp] theorem State.setRegs_params (r : Regs) : (s.setRegs r).params = s.params := rfl
@[simp] theorem State.setRegs_regs (r : Regs) : (s.setRegs r).regs = r := rfl
@[simp] theorem State.setRegs_buf (r : Regs) : (s.setRegs r).buf = s.buf := rfl
@[simp] theorem State.setRegs_setall (r : Regs) : (s.setRegs r).setall = s.setall := rfl
@[simp] theorem State.setRegs_resp (r : Regs) : (s.setRegs r).resp = s.resp := rfl
@[simp] theorem State.setRegs_chain (r : Regs) : (s.setRegs r).chain = s.chain := rfl
@[simp] theorem State.setRegs_host (r : Regs) : (s.setRegs r).host = s.host := rfl
@[simp] theorem State.setRegs_script (r : Regs) : (s.setRegs r).script = s.script := rfl
@[simp] theorem State.setRegs_draws (r : Regs) : (s.setRegs r).draws = s.draws := rfl

@[simp] theorem State.setBuf_params (m : Memory) : (s.setBuf m).params = s.params := rfl
@[simp] theorem State.setBuf_regs (m : Memory) : (s.setBuf m).regs = s.regs := rfl
@[simp] theorem State.setBuf_buf (m : Memory) : (s.setBuf m).buf = m := rfl
@[simp] theorem State.setBuf_setall (m : Memory) : (s.setBuf m).setall = s.setall := rfl
@[simp] theorem State.setBuf_resp (m : Memory) : (s.setBuf m).resp = s.resp := rfl
@[simp] theorem State.setBuf_chain (m : Memory) : (s.setBuf m).chain = s.chain := rfl
@[simp] theorem State.setBuf_host (m : Memory) : (s.setBuf m).host = s.host := rfl
@[simp] theorem State.setBuf_script (m : Memory) : (s.setBuf m).script = s.script := rfl
@[simp] theorem State.setBuf_draws (m : Memory) : (s.setBuf m).draws = s.draws := rfl

@[simp] theorem State.setSetall_params (o : Option SetallRun) : (s.setSetall o).params = s.params := rfl
@[simp] theorem State.setSetall_regs (o : Option SetallRun) : (s.setSetall o).regs = s.regs := rfl
@[simp] theorem State.setSetall_buf (o : Option SetallRun) : (s.setSetall o).buf = s.buf := rfl
@[simp] theorem State.setSetall_setall (o : Option SetallRun) : (s.setSetall o).setall = o := rfl
@[simp] theorem State.setSetall_resp (o : Option SetallRun) : (s.setSetall o).resp = s.resp := rfl
@[simp] theorem State.setSetall_chain (o : Option SetallRun) : (s.setSetall o).chain = s.chain := rfl
@[simp] theorem State.setSetall_host (o : Option SetallRun) : (s.setSetall o).host = s.host := rfl
@[simp] theorem State.setSetall_script (o : Option SetallRun) : (s.setSetall o).script = s.script := rfl
@[simp] theorem State.setSetall_draws (o : Option SetallRun) : (s.setSetall o).draws = s.draws := rfl

@[simp] theorem State.setResp_params (v : Byte) : (s.setResp v).params = s.params := rfl
@[simp] theorem State.setResp_regs (v : Byte) : (s.setResp v).regs = s.regs := rfl
@[simp] theorem State.setResp_buf (v : Byte) : (s.setResp v).buf = s.buf := rfl
@[simp] theorem State.setResp_setall (v : Byte) : (s.setResp v).setall = s.setall := rfl
@[simp] theorem State.setResp_resp (v : Byte) : (s.setResp v).resp = v := rfl
@[simp] theorem State.setResp_chain (v : Byte) : (s.setResp v).chain = s.chain := rfl
@[simp] theorem State.setResp_host (v : Byte) : (s.setResp v).host = s.host := rfl
@[simp] theorem State.setResp_script (v : Byte) : (s.setResp v).script = s.script := rfl
@[simp] theorem State.setResp_draws (v : Byte) : (s.setResp v).draws = s.draws := rfl

@[simp] theorem State.setChain_params (c : Chain) : (s.setChain c).params = s.params := rfl
@[simp] theorem State.setChain_regs (c : Chain) : (s.setChain c).regs = s.regs := rfl
@[simp] theorem State.setChain_buf (c : Chain) : (s.setChain c).buf = s.buf := rfl
@[simp] theorem State.setChain_setall (c : Chain) : (s.setChain c).setall = s.setall := rfl
@[simp] theorem State.setChain_resp (c : Chain) : (s.setChain c).resp = s.resp := rfl
@[simp] theorem State.setChain_chain (c : Chain) : (s.setChain c).chain = c := rfl
@[simp] theorem State.setChain_host (c : Chain) : (s.setChain c).host = s.host := rfl
@[simp] theorem State.setChain_script (c : Chain) : (s.setChain c).script = s.script := rfl
@[simp] theorem State.setChain_draws (c : Chain) : (s.setChain c).draws = s.draws := rfl

@[simp] theorem State.setHost_params (h : HostSw) : (s.setHost h).params = s.params := rfl
@[simp] theorem State.setHost_regs (h : HostSw) : (s.setHost h).regs = s.regs := rfl
@[simp] theorem State.setHost_buf (h : HostSw) : (s.setHost h).buf = s.buf := rfl
@[simp] theorem State.setHost_setall (h : HostSw) : (s.setHost h).setall = s.setall := rfl
@[simp] theorem State.setHost_resp (h : HostSw) : (s.setHost h).resp = s.resp := rfl
@[simp] theorem State.setHost_chain (h : HostSw) : (s.setHost h).chain = s.chain := rfl
@[simp] theorem State.setHost_host (h : HostSw) : (s.setHost h).host = h := rfl
@[simp] theorem State.setHost_script (h : HostSw) : (s.setHost h).script = s.script := rfl
@[simp] theorem State.setHost_draws (h : HostSw) : (s.setHost h).draws = s.draws := rfl

@[simp] theorem State.setScript_params (ts : List Turn) : (s.setScript ts).params = s.params := rfl
@[simp] theorem State.setScript_regs (ts : List Turn) : (s.setScript ts).regs = s.regs := rfl
@[simp] theorem State.setScript_buf (ts : List Turn) : (s.setScript ts).buf = s.buf := rfl
@[simp] theorem State.setScript_setall (ts : List Turn) : (s.setScript ts).setall = s.setall := rfl
@[simp] theorem State.setScript_resp (ts : List Turn) : (s.setScript ts).resp = s.resp := rfl
@[simp] theorem State.setScript_chain (ts : List Turn) : (s.setScript ts).chain = s.chain := rfl
@[simp] theorem State.setScript_host (ts : List Turn) : (s.setScript ts).host = s.host := rfl
@[simp] theorem State.setScript_script (ts : List Turn) : (s.setScript ts).script = ts := rfl
@[simp] theorem State.setScript_draws (ts : List Turn) : (s.setScript ts).draws = s.draws := rfl

@[simp] theorem State.drawn_params : s.drawn.params = s.params := rfl
@[simp] theorem State.drawn_regs : s.drawn.regs = s.regs := rfl
@[simp] theorem State.drawn_buf : s.drawn.buf = s.buf := rfl
@[simp] theorem State.drawn_setall : s.drawn.setall = s.setall := rfl
@[simp] theorem State.drawn_resp : s.drawn.resp = s.resp := rfl
@[simp] theorem State.drawn_chain : s.drawn.chain = s.chain := rfl
@[simp] theorem State.drawn_host : s.drawn.host = s.host := rfl
@[simp] theorem State.drawn_script : s.drawn.script = s.script := rfl
@[simp] theorem State.drawn_draws : s.drawn.draws = s.draws + 1 := rfl

@[simp] theorem State.memWrite_params (i : Nat) (v : Byte) : (s.memWrite i v).params = s.params := rfl
@[simp] theorem State.memWrite_regs (i : Nat) (v : Byte) : (s.memWrite i v).regs = s.regs := rfl
@[simp] theorem State.memWrite_buf (i : Nat) (v : Byte) : (s.memWrite i v).buf = s.buf.write i v := rfl
@[simp] theorem State.memWrite_setall (i : Nat) (v : Byte) : (s.memWrite i v).setall = s.setall := rfl
@[simp] theorem State.memWrite_resp (i : Nat) (v : Byte) : (s.memWrite i v).resp = s.resp := rfl
@[simp] theorem State.memWrite_chain (i : Nat) (v : Byte) : (s.memWrite i v).chain = s.chain := rfl
@[simp] theorem State.memWrite_host (i : Nat) (v : Byte) : (s.memWrite i v).host = s.host := rfl
@[simp] theorem State.memWrite_script (i : Nat) (v : Byte) : (s.memWrite i v).script = s.script := rfl
@[simp] theorem State.memWrite_draws (i : Nat) (v : Byte) : (s.memWrite i v).draws = s.draws := rfl

@[simp] theorem State.respUndefined_params : s.respUndefined.params = s.params := rfl
@[simp] theorem State.respUndefined_regs : s.respUndefined.regs = s.regs := rfl
@[simp] theorem State.respUndefined_buf : s.respUndefined.buf = s.buf := rfl
@[simp] theorem State.respUndefined_setall : s.respUndefined.setall = s.setall := rfl
@[simp] theorem State.respUndefined_resp : s.respUndefined.resp = Config.freeResp s.draws := rfl
@[simp] theorem State.respUndefined_chain : s.respUndefined.chain = s.chain := rfl
@[simp] theorem State.respUndefined_host : s.respUndefined.host = s.host := rfl
@[simp] theorem State.respUndefined_script : s.respUndefined.script = s.script := rfl
@[simp] theorem State.respUndefined_draws : s.respUndefined.draws = s.draws + 1 := rfl

end Sys2Proof.Machine
end

