-- ==== Sys2Proof/Laws/Memory.lean ====
section
/-! SUPPORT. The laws of the channel buffer: a read after a write, the canonical form, which slots are listed. -/

namespace Sys2Proof.Machine

@[simp] theorem Memory.read?_nil (a : Nat) : Memory.read? [] a = none := rfl

/-- A read after a write: the written value at the written slot, the old one elsewhere. -/
@[simp] theorem Memory.read?_write (m : Memory) (a b : Nat) (v : Byte) :
    (m.write a v).read? b = if b = a then some v else m.read? b := by
  induction m with
  | nil => simp [Memory.write, Memory.read?]
  | cons c m ih =>
    obtain ⟨k, x⟩ := c
    simp only [Memory.write]
    split
    · simp [Memory.read?]
    · split
      · rename_i h; subst h
        by_cases hb : b = a <;> simp [Memory.read?, hb]
      · rename_i h
        simp only [Memory.read?, ih]
        by_cases hb : b = k
        · have : k ≠ a := fun e => h e.symm
          simp [hb, this]
        · simp [hb]

/-- The slots listed after a write are the written one and those listed before. -/
theorem Memory.mem_write {m : Memory} {a : Nat} {v : Byte} {c : Host.Cell} (h : c ∈ m.write a v) :
    c = (a, v) ∨ c ∈ m := by
  induction m with
  | nil => simpa [Memory.write] using h
  | cons d m ih =>
    obtain ⟨k, x⟩ := d
    simp only [Memory.write] at h
    split at h
    · simpa using h
    · split at h
      · rcases List.mem_cons.mp h with h | h
        · exact .inl h
        · exact .inr (List.mem_cons_of_mem _ h)
      · rcases List.mem_cons.mp h with h | h
        · exact .inr (h ▸ List.mem_cons_self)
        · rcases ih h with h | h
          · exact .inl h
          · exact .inr (List.mem_cons_of_mem _ h)

theorem Memory.wf_nil : Memory.wf [] := List.Pairwise.nil

/-- A write keeps the canonical form. -/
theorem Memory.wf_write {m : Memory} (a : Nat) (v : Byte) (h : m.wf) : (m.write a v).wf := by
  induction m with
  | nil => simp [Memory.write, Memory.wf]
  | cons d m ih =>
    obtain ⟨k, x⟩ := d
    obtain ⟨hd, hm⟩ := List.pairwise_cons.mp h
    simp only [Memory.write]
    split
    · rename_i hlt
      refine List.pairwise_cons.mpr ⟨fun c hc => ?_, h⟩
      rcases List.mem_cons.mp hc with rfl | hc
      · exact hlt
      · exact Nat.lt_trans hlt (hd c hc)
    · split
      · rename_i e
        exact List.pairwise_cons.mpr ⟨fun c hc => by have := hd c hc; simp only at this ⊢; omega, hm⟩
      · refine List.pairwise_cons.mpr ⟨fun c hc => ?_, ih hm⟩
        rcases Memory.mem_write hc with rfl | hc
        · simp only; omega
        · exact hd c hc

/-- `MemRead` after `MemWrite`. -/
@[simp] theorem State.memRead_memWrite (s : State) (i j : Nat) (v : Byte) :
    (s.memWrite i v).memRead j = if j = i then v else s.memRead j := by
  by_cases h : j = i <;> simp [State.memRead, h]

/-- `MemRead` looks at the buffer alone. -/
theorem State.memRead_congr {s t : State} (h : t.buf = s.buf) (i : Nat) : t.memRead i = s.memRead i := by
  simp [State.memRead, h]

@[simp] theorem State.memRead_setRegs (s : State) (r : Regs) (i : Nat) : (s.setRegs r).memRead i = s.memRead i := rfl
@[simp] theorem State.memRead_setSetall (s : State) (o : Option SetallRun) (i : Nat) :
    (s.setSetall o).memRead i = s.memRead i := rfl
@[simp] theorem State.memRead_setResp (s : State) (v : Byte) (i : Nat) : (s.setResp v).memRead i = s.memRead i := rfl
@[simp] theorem State.memRead_setChain (s : State) (c : Chain) (i : Nat) : (s.setChain c).memRead i = s.memRead i := rfl
@[simp] theorem State.memRead_setHost (s : State) (h : HostSw) (i : Nat) : (s.setHost h).memRead i = s.memRead i := rfl
@[simp] theorem State.memRead_setScript (s : State) (ts : List Turn) (i : Nat) :
    (s.setScript ts).memRead i = s.memRead i := rfl
@[simp] theorem State.memRead_drawn (s : State) (i : Nat) : s.drawn.memRead i = s.memRead i := rfl
@[simp] theorem State.memRead_respUndefined (s : State) (i : Nat) : s.respUndefined.memRead i = s.memRead i := rfl

end Sys2Proof.Machine
end

