-- ==== Sys2Proof/Laws/Exec.lean ====
section
/-! SUPPORT. What each shared operation and each meaning can do, said once. -/

namespace Sys2Proof.Machine

/-! ### Shared computations as numbers -/

/-- The prescaler value is never truncated: it fits 17 bits (R210, R32 c). -/
theorem prescalerOf_toNat (p : Params) (freq : BitVec 16) :
    (prescalerOf p freq).toNat = freq.toNat / p.baseRate + 1 := by
  have h : freq.toNat / p.baseRate ≤ freq.toNat := Nat.div_le_self ..
  have := freq.isLt
  simp only [prescalerOf, BitVec.toNat_ofNat]
  exact Nat.mod_eq_of_lt (by omega)

theorem lbMod_pos (p : Params) (maxb : BitVec 8) : 0 < lbMod p maxb := by
  unfold lbMod; split <;> omega

theorem lbMod_le (p : Params) (maxb : BitVec 8) : lbMod p maxb ≤ 256 := by
  have := maxb.isLt
  unfold lbMod; split <;> omega

/-- The load-balance addition is never truncated (R177). -/
theorem addOffset_toNat (p : Params) (maxb cmp : BitVec 8) :
    (addOffset p maxb cmp).toNat = (cmp.toNat + 8) % lbMod p maxb := by
  have h := Nat.mod_lt (cmp.toNat + 8) (lbMod_pos p maxb)
  have := lbMod_le p maxb
  simp only [addOffset, BitVec.toNat_ofNat]
  omega

/-- The counter update over the integers (R180). -/
theorem advanceCounter_toNat (maxb counter : BitVec 8) :
    (advanceCounter maxb counter).toNat = if maxb.toNat ≤ counter.toNat then 0 else counter.toNat + 1 := by
  have := maxb.isLt
  unfold advanceCounter
  split
  · rfl
  · rw [BitVec.toNat_add, show (1 : BitVec 8).toNat = 1 from rfl]
    omega

/-- The comparison value of a pass, with load balancing, as a number (R184). -/
theorem passCmp_toNat {p : Params} (h : p.loadBalance = true) (maxb c : BitVec 8) (r : Nat) :
    (passCmp p maxb c r).toNat = (c.toNat + 8 * (p.nRegs - 1 - r)) % lbMod p maxb := by
  have h1 := Nat.mod_lt (c.toNat + 8 * (p.nRegs - 1 - r)) (lbMod_pos p maxb)
  have := lbMod_le p maxb
  simp only [passCmp, h, if_true, BitVec.toNat_ofNat]
  omega

theorem passCmp_of_not {p : Params} (h : p.loadBalance = false) (maxb c : BitVec 8) (r : Nat) :
    passCmp p maxb c r = c := by
  simp [passCmp, h]

/-- The countdown reaches 0 exactly from 1 (R170). -/
theorem countDown_eq_zero (x : BitVec 17) : countDown x = 0#17 ↔ x = 1#17 := by
  unfold countDown
  constructor
  · intro h
    have := congrArg (· + 1) h
    simpa using this
  · rintro rfl; rfl

@[simp] theorem Phase.ofCode_code (ph : Phase) : Phase.ofCode ph.code = some ph := by cases ph <;> rfl

/-- The micro-operation of each phase (R99). -/
theorem Phase.code_ne_seven (ph : Phase) : ph.code ≠ 7#3 := by cases ph <;> decide

/-! ### What each meaning answers -/

theorem execStart_next {freq : BitVec 16} {maxb : Byte} {s t : State} (h : execStart freq maxb s = .next t) :
    s.regs.busy = false ∧ t = (s.setRegs (startRegs s.params freq maxb s.regs)).respUndefined := by
  unfold execStart at h
  split at h
  · cases h
  · rename_i hb
    exact ⟨by simpa using hb, by injection h with h; exact h.symm⟩

theorem execPData_next {s t : State} (h : execPData s = .next t) :
    s.regs.idx.toNat < s.params.nch ∧ t = s.setRegs { s.regs with
      data := compareBit s.params (s.memRead s.regs.idx.toNat) s.regs.cmp, phase := .clkLow } := by
  unfold execPData at h
  split at h
  · rename_i hi
    exact ⟨hi, by injection h with h; exact h.symm⟩
  · cases h

theorem execSetone_next {index : BitVec 16} {value : Byte} {s t : State} (h : execSetone index value s = .next t) :
    (index.toNat < s.params.nch ∧ t = (s.memWrite index.toNat value).respUndefined)
      ∨ (s.params.nch ≤ index.toNat ∧ t = s.respUndefined) := by
  unfold execSetone slotInRange at h
  split at h <;> rename_i hi <;> injection h with h <;> simp only [decide_eq_true_eq] at hi
  · exact .inl ⟨hi, h.symm⟩
  · exact .inr ⟨by omega, h.symm⟩

/-- A next state of any operation: every register, the buffer and the SETALL are what the operation's rule says; one case
for each operation. -/
theorem exec_cases {i : Instr} {s t : State} (h : exec i s = .next t) :
    (∃ freq maxb, i = .start freq maxb ∧ s.regs.busy = false
        ∧ t = (s.setRegs (startRegs s.params freq maxb s.regs)).respUndefined)
    ∨ (i = .stop ∧ t = (s.setRegs { s.regs with enable := false }).respUndefined)
    ∨ (∃ index value, i = .setone index value ∧ index.toNat < s.params.nch
        ∧ t = (s.memWrite index.toNat value).respUndefined)
    ∨ (∃ index value, i = .setone index value ∧ s.params.nch ≤ index.toNat ∧ t = s.respUndefined)
    ∨ (∃ value, i = .setall value ∧ t = setallWrite 0 value s)
    ∨ (∃ index, i = .getone index
        ∧ t = s.setResp (if slotInRange s.params index then s.memRead index.toNat else 0x00))
    ∨ (i = .tick ∧ t = s.setRegs (tickRegs s.params s.regs))
    ∨ (i = .reset ∧ t = ((s.setRegs Regs.reset).setSetall none).respUndefined)
    ∨ (i = .pLatchlo ∧ t = s.setRegs { s.regs with latch := false, phase := .data })
    ∨ (i = .pData ∧ s.regs.idx.toNat < s.params.nch ∧ t = s.setRegs { s.regs with
        data := compareBit s.params (s.memRead s.regs.idx.toNat) s.regs.cmp, phase := .clkLow })
    ∨ (i = .pClklo ∧ t = s.setRegs { s.regs with clock := false, phase := .clkHigh })
    ∨ (i = .pClkhi ∧ t = s.setRegs (clkhiRegs s.params s.regs))
    ∨ (i = .pLatchhi ∧ t = s.setRegs { s.regs with latch := true, phase := .finish })
    ∨ (i = .pFinish ∧ t = s.setRegs (endPass { s.regs with
        counter := advanceCounter s.regs.maxb s.regs.counter })) := by
  cases i with
  | start freq maxb => exact .inl ⟨freq, maxb, rfl, execStart_next h⟩
  | stop => injection h with h; simp [h]
  | setone index value =>
    rcases execSetone_next h with h | h
    · exact .inr (.inr (.inl ⟨index, value, rfl, h⟩))
    · exact .inr (.inr (.inr (.inl ⟨index, value, rfl, h⟩)))
  | setall value => injection h with h; simp [h]
  | getone index => injection h with h; simp [← h]
  | tick => injection h with h; simp [h]
  | reset => injection h with h; simp [h]
  | pLatchlo => injection h with h; simp [h]
  | pData => simpa using execPData_next h
  | pClklo => injection h with h; simp [h]
  | pClkhi => injection h with h; simp [h]
  | pLatchhi => injection h with h; simp [h]
  | pFinish => injection h with h; simp [h]

/-- No operation of the block touches the parameters, the chain, the host software or the script. -/
theorem exec_surroundings {i : Instr} {s t : State} (h : exec i s = .next t) :
    t.params = s.params ∧ t.chain = s.chain ∧ t.host = s.host ∧ t.script = s.script := by
  rcases exec_cases h with ⟨_, _, _, _, rfl⟩ | ⟨_, rfl⟩ | ⟨_, _, _, _, rfl⟩ | ⟨_, _, _, _, rfl⟩ | ⟨_, _, rfl⟩ | ⟨_, _, rfl⟩
    | ⟨_, rfl⟩ | ⟨_, rfl⟩ | ⟨_, rfl⟩ | ⟨_, _, rfl⟩ | ⟨_, rfl⟩ | ⟨_, rfl⟩ | ⟨_, rfl⟩ | ⟨_, rfl⟩ <;>
    exact ⟨rfl, rfl, rfl, rfl⟩

/-- Only P_DATA faults, and only outside the buffer (log 14). -/
theorem exec_fault {i : Instr} {s : State} {e : Fault} (h : exec i s = .fault e) :
    i = .pData ∧ s.params.nch ≤ s.regs.idx.toNat ∧ e = .slotOutside s.regs.idx.toNat := by
  cases i with
  | start freq maxb => simp only [exec, execStart] at h; split at h <;> cases h
  | setone index value => simp only [exec, execSetone] at h; split at h <;> cases h
  | pData =>
    simp only [exec, execPData] at h
    split at h
    · cases h
    · rename_i hi
      injection h with h
      exact ⟨rfl, by omega, h.symm⟩
  | _ => cases h

/-- Only START refuses, and only during a pass (R211). -/
theorem exec_refused {i : Instr} {s : State} {e : Refusal} (h : exec i s = .refused e) :
    (∃ freq maxb, i = .start freq maxb) ∧ s.regs.busy = true ∧ e = .startWhileBusy := by
  cases i with
  | start freq maxb =>
    simp only [exec, execStart] at h
    split at h
    · rename_i hb
      injection h with h
      exact ⟨⟨_, _, rfl⟩, hb, h.symm⟩
    · cases h
  | setone index value => simp only [exec, execSetone] at h; split at h <;> cases h
  | pData => simp only [exec, execPData] at h; split at h <;> cases h
  | _ => cases h

end Sys2Proof.Machine
end

