-- ==== Sys2Proof/Laws/HostSoftware.lean ====
section
/-! SUPPORT. What the host software's expansions consist of, and what beginning one can answer. -/

namespace Sys2Proof.Machine

/-- An action that presents a command word. -/
def HostAction.isSend : HostAction → Bool
  | .send _ => true
  | _ => false

/-! ### Expansions are commands -/

theorem setoneRun_isSend (grouping base : Nat) (vs : List Byte) : (setoneRun grouping base vs).all HostAction.isSend := by
  induction vs generalizing base with
  | nil => rfl
  | cons v vs ih => simpa [setoneRun, HostAction.isSend] using ih (base + grouping)

theorem groupWrites_isSend (p : Params) (grouping group : Nat) (vs : List Byte) (offset : Nat) :
    (groupWrites p grouping group vs offset).all HostAction.isSend := by
  unfold groupWrites
  split
  · exact setoneRun_isSend ..
  · rfl

theorem rgbWrites_isSend (p : Params) (grouping : Nat) (m : Byte) (channel : Nat) (r g b : Byte) (offset : Nat) :
    (rgbWrites p grouping m channel r g b offset).all HostAction.isSend :=
  groupWrites_isSend ..

theorem allRgbWrites_isSend (p : Params) (grouping : Nat) (m r g b : Byte) :
    (allRgbWrites p grouping m r g b).all HostAction.isSend := by
  simp only [allRgbWrites, List.all_flatMap, List.all_eq_true]
  intro group _ a ha
  exact List.all_eq_true.mp (rgbWrites_isSend p grouping m group r g b 0) a ha

/-- Commands in front of a possible position leave it possible. -/
theorem actionsOk_append {kept : Nat} {as bs : List HostAction} (h : as.all HostAction.isSend) (hb : actionsOk kept bs) :
    actionsOk kept (as ++ bs) := by
  induction as with
  | nil => exact hb
  | cons a as ih =>
    simp only [List.all_cons, Bool.and_eq_true] at h
    cases a with
    | send w => exact ih h.2
    | readBack _ => cases h.1
    | replicate => cases h.1

theorem actionsOk_sends {kept : Nat} {as : List HostAction} (h : as.all HostAction.isSend) : actionsOk kept as := by
  have := actionsOk_append (kept := kept) (bs := []) h trivial
  rwa [List.append_nil] at this

theorem replicate_not_mem_sends {as : List HostAction} (h : as.all HostAction.isSend) : .replicate ∉ as := fun hm => by
  have := List.all_eq_true.mp h _ hm
  simp [HostAction.isSend] at this

/-! ### Beginning a pseudo-operation -/

/-- A grouped or colour write has a `pinGrouping` of at least 1. -/
theorem withGrouping_next {s t : State} {k : Nat → Outcome} (h : withGrouping s k = .next t) :
    ∃ g, s.host.pinGrouping = some (g + 1) ∧ k (g + 1) = .next t := by
  unfold withGrouping at h
  split at h
  · cases h
  · cases h
  · rename_i g hg
    exact ⟨g, hg, h⟩

theorem withGrouping_fault {s : State} {e : Fault} {k : Nat → Outcome} (h : withGrouping s k = .fault e) :
    ∃ g, k (g + 1) = .fault e := by
  unfold withGrouping at h
  split at h
  · cases h
  · cases h
  · exact ⟨_, h⟩

theorem withGrouping_refused {s : State} {e : Refusal} {k : Nat → Outcome} (h : withGrouping s k = .refused e) :
    (e = .groupingUnset ∧ s.host.pinGrouping = none) ∨ (e = .groupingZero ∧ s.host.pinGrouping = some 0)
      ∨ ∃ g, k (g + 1) = .refused e := by
  unfold withGrouping at h
  split at h <;> rename_i hg
  · injection h with h; exact .inl ⟨h.symm, hg⟩
  · injection h with h; exact .inr (.inl ⟨h.symm, hg⟩)
  · exact .inr (.inr ⟨_, h⟩)

/-- A colour in HSV has a hue of one of the six sextants. -/
theorem withHsv_next {hue : Nat} {sat val : Byte} {t : State} {k : Byte × Byte × Byte → Outcome}
    (h : withHsv hue sat val k = .next t) : ∃ rgb, hsvToRgb hue sat val = some rgb ∧ k rgb = .next t := by
  unfold withHsv at h
  split at h
  · cases h
  · rename_i rgb hr
    exact ⟨rgb, hr, h⟩

/-- What beginning a pseudo-operation answers: `pinGrouping` set, or a list of actions begun, at a possible position. -/
theorem performOp_next {o : HostOp} {s t : State} (h : performOp o s = .next t) :
    (∃ g, t = s.setHost { s.host with pinGrouping := some (g + 1) })
    ∨ (∃ as, s.host.pinGrouping ≠ none ∧ actionsOk 0 as ∧ t = s.beginActions as) := by
  have sends {s t : State} {as : List HostAction} (hp : s.host.pinGrouping ≠ none) (ha : as.all HostAction.isSend)
      (h : Host.Outcome.next (φ := Fault) (ρ := Refusal) (s.beginActions as) = .next t) :
      ∃ as, s.host.pinGrouping ≠ none ∧ actionsOk 0 as ∧ t = s.beginActions as :=
    ⟨as, hp, actionsOk_sends ha, by injection h with h; exact h.symm⟩
  cases o with
  | setPinGrouping g =>
    simp only [performOp] at h
    split at h
    · cases h
    · rename_i hg
      obtain ⟨k, rfl⟩ := Nat.exists_eq_succ_of_ne_zero hg
      injection h with h
      exact .inl ⟨k, h.symm⟩
  | setHsv channel hue sat val offset =>
    simp only [performOp] at h
    obtain ⟨g, hg, h⟩ := withGrouping_next h
    obtain ⟨rgb, _, h⟩ := withHsv_next h
    exact .inr (sends (by simp [hg]) (rgbWrites_isSend ..) h)
  | setAllHsv hue sat val =>
    simp only [performOp] at h
    obtain ⟨g, hg, h⟩ := withGrouping_next h
    obtain ⟨rgb, _, h⟩ := withHsv_next h
    injection h with h
    refine .inr ⟨_, by simp [hg], ?_, h.symm⟩
    rw [List.append_assoc]
    refine actionsOk_append (rgbWrites_isSend ..) ?_
    unfold readBackSlots
    split <;> exact ⟨rfl, rfl⟩
  | oneByOneSlow => cases h
  | oneByOneFast => cases h
  | setAllRgb r g b =>
    simp only [performOp] at h
    obtain ⟨g, hg, h⟩ := withGrouping_next h
    exact .inr (sends (by simp [hg]) (allRgbWrites_isSend ..) h)
  | setRgb channel r g b offset =>
    simp only [performOp] at h
    obtain ⟨g, hg, h⟩ := withGrouping_next h
    exact .inr (sends (by simp [hg]) (rgbWrites_isSend ..) h)
  | _ =>
    simp only [performOp] at h
    obtain ⟨g, hg, h⟩ := withGrouping_next h
    exact .inr (sends (by simp [hg]) (groupWrites_isSend ..) h)

/-- Beginning a pseudo-operation concerns the host software alone. -/
theorem performOp_setHost {o : HostOp} {s t : State} (h : performOp o s = .next t) : ∃ h', t = s.setHost h' := by
  rcases performOp_next h with ⟨g, rfl⟩ | ⟨as, _, _, rfl⟩ <;> exact ⟨_, rfl⟩

/-- Beginning a pseudo-operation never faults. -/
theorem performOp_fault {o : HostOp} {s : State} {e : Fault} : performOp o s ≠ .fault e := fun h => by
  cases o with
  | setPinGrouping g =>
    simp only [performOp] at h
    split at h <;> cases h
  | setHsv channel hue sat val offset =>
    simp only [performOp] at h
    obtain ⟨g, h⟩ := withGrouping_fault h
    unfold withHsv at h
    split at h <;> cases h
  | setAllHsv hue sat val =>
    simp only [performOp] at h
    obtain ⟨g, h⟩ := withGrouping_fault h
    unfold withHsv at h
    split at h <;> cases h
  | oneByOneSlow => cases h
  | oneByOneFast => cases h
  | _ =>
    simp only [performOp] at h
    obtain ⟨g, h⟩ := withGrouping_fault h
    cases h

/-- Only a hue outside the six sextants has no colour (R149, U12). -/
theorem hsvToRgb_none {hue : Nat} {sat val : Byte} (h : hsvToRgb hue sat val = none) : 360 ≤ hue := by
  by_contra hlt
  have : hue / 60 < 6 := by omega
  unfold hsvToRgb at h
  interval_cases hue / 60 <;> cases h

theorem withHsv_refused {hue : Nat} {sat val : Byte} {e : Refusal} {k : Byte × Byte × Byte → Outcome}
    (h : withHsv hue sat val k = .refused e) :
    (e = .hueOutOfRange ∧ 360 ≤ hue) ∨ ∃ rgb, k rgb = .refused e := by
  unfold withHsv at h
  split at h
  · rename_i hn
    injection h with h
    exact .inl ⟨h.symm, hsvToRgb_none hn⟩
  · exact .inr ⟨_, h⟩

/-- Why beginning a pseudo-operation is refused, and of which operation in which state (U11, U12, U17, U18). A
`pinGrouping` of 0 is ruled out by the machine's invariant. -/
theorem performOp_refused {o : HostOp} {s : State} {e : Refusal} (h : performOp o s = .refused e) :
    (e = .groupingZero ∧ (o = .setPinGrouping 0 ∨ s.host.pinGrouping = some 0))
    ∨ (e = .groupingUnset ∧ s.host.pinGrouping = none
        ∧ (∀ grouping, o ≠ .setPinGrouping grouping) ∧ o ≠ .oneByOneSlow ∧ o ≠ .oneByOneFast)
    ∨ (e = .hueOutOfRange ∧ ∃ hue sat val, 360 ≤ hue
        ∧ (o = .setAllHsv hue sat val ∨ ∃ channel offset, o = .setHsv channel hue sat val offset))
    ∨ (e = .noExpansion ∧ (o = .oneByOneSlow ∨ o = .oneByOneFast)) := by
  cases o with
  | setPinGrouping g =>
    simp only [performOp] at h
    split at h <;> cases h
    rename_i hg
    simp [hg]
  | oneByOneSlow => cases h; simp
  | oneByOneFast => cases h; simp
  | setHsv channel hue sat val offset =>
    simp only [performOp] at h
    rcases withGrouping_refused h with ⟨rfl, hg⟩ | ⟨rfl, hg⟩ | ⟨g, h⟩
    · simp [hg]
    · simp [hg]
    · rcases withHsv_refused h with ⟨rfl, hh⟩ | ⟨rgb, h⟩
      · exact .inr (.inr (.inl ⟨rfl, hue, sat, val, hh, .inr ⟨channel, offset, rfl⟩⟩))
      · cases h
  | setAllHsv hue sat val =>
    simp only [performOp] at h
    rcases withGrouping_refused h with ⟨rfl, hg⟩ | ⟨rfl, hg⟩ | ⟨g, h⟩
    · simp [hg]
    · simp [hg]
    · rcases withHsv_refused h with ⟨rfl, hh⟩ | ⟨rgb, h⟩
      · exact .inr (.inr (.inl ⟨rfl, hue, sat, val, hh, .inl rfl⟩))
      · cases h
  | _ =>
    simp only [performOp] at h
    rcases withGrouping_refused h with ⟨rfl, hg⟩ | ⟨rfl, hg⟩ | ⟨g, h⟩
    · simp [hg]
    · simp [hg]
    · cases h

/-- The second half of SETALLHSV: it needs three responses in hand (R152). -/
theorem replicateKept_next {s t : State} (h : replicateKept s = .next t) :
    ∃ as, s.host.pinGrouping ≠ none ∧ as.all HostAction.isSend ∧ t = s.beginActions as := by
  unfold replicateKept at h
  split at h
  · obtain ⟨g, hg, h⟩ := withGrouping_next h
    injection h with h
    exact ⟨_, by simp [hg], allRgbWrites_isSend .., h.symm⟩
  · cases h

/-- What the host software notes concerns itself alone. -/
theorem hostNotes_eq (i : Instr) (s : State) : ∃ h, s.hostNotes i = s.setHost h := by
  cases i with
  | start freq maxb => exact ⟨_, rfl⟩
  | getone index =>
    unfold State.hostNotes
    simp only
    split
    · exact ⟨_, rfl⟩
    · exact ⟨s.host, rfl⟩
  | _ => exact ⟨s.host, rfl⟩

end Sys2Proof.Machine
end

