-- ==== Sys2Proof/Laws/PerInstr.lean ====
section
/-! SUPPORT. A law of every operation as syntax, one lemma for each constructor. -/

namespace Sys2Proof.Laws.RowMatch

open Sys2Proof

/-- The operation's word matches one row of the opcode table, the row of its mnemonic (R93, R94, R99). -/
def Statement (i : Instr) : Prop :=
  (opcodeTable.filter (fun r => r.selects (encode i))).map OpcodeRow.mnemonic = [i.mnemonic]

/-- A command word under the table's mask of the operation code. -/
theorem cmdWord_opcode (op : BitVec 8) (a : BitVec 16) (d : BitVec 8) :
    cmdWord op a d &&& 0xFF000000 = cmdWord op 0 0 := by
  have h := cmdWord_and op 0xFF#8 a 0#16 d 0#8
  rw [BitVec.and_zero, BitVec.and_zero, show (0xFF#8) = BitVec.allOnes 8 from rfl, BitVec.and_allOnes] at h
  exact h

/-- The rows an operation code selects on the command port. -/
theorem cmd_rows (op : BitVec 8) (a : BitVec 16) (d : BitVec 8) :
    opcodeTable.filter (fun r => r.selects (.cmd (cmdWord op a d)))
      = opcodeTable.filter (fun r => decide (r.port = .cmd) && decide (cmdWord op 0 0 = r.value)) := by
  have mask : ∀ r ∈ opcodeTable, r.port = .cmd → r.mask = 0xFF000000 := by decide
  refine List.filter_congr fun r hr => ?_
  by_cases hp : r.port = .cmd
  · simp only [OpcodeRow.selects, PortWord.port, PortWord.bits, hp, mask r hr hp, cmdWord_opcode]
  · simp [OpcodeRow.selects, PortWord.port, hp, Ne.symm hp]

theorem start (freq : BitVec 16) (maxb : Byte) : Statement (.start freq maxb) := by
  unfold Statement encode
  rw [cmd_rows]
  rfl

theorem stop : Statement .stop := rfl

theorem setone (index : BitVec 16) (value : Byte) : Statement (.setone index value) := by
  unfold Statement encode
  rw [cmd_rows]
  rfl

theorem setall (value : Byte) : Statement (.setall value) := by
  unfold Statement encode
  rw [cmd_rows]
  rfl

theorem getone (index : BitVec 16) : Statement (.getone index) := by
  unfold Statement encode
  rw [cmd_rows]
  rfl

theorem tick : Statement .tick := rfl

theorem reset : Statement .reset := rfl

theorem pLatchlo : Statement .pLatchlo := rfl

theorem pData : Statement .pData := rfl

theorem pClklo : Statement .pClklo := rfl

theorem pClkhi : Statement .pClkhi := rfl

theorem pLatchhi : Statement .pLatchhi := rfl

theorem pFinish : Statement .pFinish := rfl

end Sys2Proof.Laws.RowMatch
end

