-- ==== Sys2Proof/Laws/Step.lean ====
section
/-! SUPPORT. The step said once: the move that is selected, what performing it can answer, the chain's reaction; and the
first laws of several steps in a row. -/

namespace Sys2Proof.Machine

/-! ### The chain's reaction -/

section React
variable (s t : State)

@[simp] theorem chainReact_params : (chainReact s t).params = t.params := by unfold chainReact; split <;> rfl
@[simp] theorem chainReact_regs : (chainReact s t).regs = t.regs := by unfold chainReact; split <;> rfl
@[simp] theorem chainReact_buf : (chainReact s t).buf = t.buf := by unfold chainReact; split <;> rfl
@[simp] theorem chainReact_setall : (chainReact s t).setall = t.setall := by unfold chainReact; split <;> rfl
@[simp] theorem chainReact_resp : (chainReact s t).resp = t.resp := by unfold chainReact; split <;> rfl
@[simp] theorem chainReact_host : (chainReact s t).host = t.host := by unfold chainReact; split <;> rfl
@[simp] theorem chainReact_script : (chainReact s t).script = t.script := by unfold chainReact; split <;> rfl

@[simp] theorem chainReact_memRead (i : Nat) : (chainReact s t).memRead i = t.memRead i :=
  State.memRead_congr (by simp) i

/-- With the lines driven throughout, the chain follows the edges (R71, R72). -/
theorem chainReact_driven (hs : s.regs.oe = true) (ht : t.regs.oe = true) :
    chainReact s t = t.setChain (t.chain.driven s.regs t.regs) := by
  simp [chainReact, hs, ht]

/-- Without the lines driven, the chain is unknown (R74). -/
theorem chainReact_undriven (h : s.regs.oe = false ∨ t.regs.oe = false) :
    chainReact s t = (t.setChain (Chain.unknown t.params.nch t.draws)).drawn := by
  rcases h with h | h <;> simp [chainReact, h]

end React

/-- A shift keeps the number of stages. -/
@[simp] theorem Chain.shift_length (c : Chain) (b : Bool) : (c.shift b).sr.length = c.sr.length := by
  simp [Chain.shift]

@[simp] theorem Chain.shift_out (c : Chain) (b : Bool) : (c.shift b).out = c.out := rfl
@[simp] theorem Chain.present_out (c : Chain) : c.present.out = c.sr := rfl
@[simp] theorem Chain.present_sr (c : Chain) : c.present.sr = c.sr := rfl
@[simp] theorem Chain.unknown_sr_length (n d : Nat) : (Chain.unknown n d).sr.length = n := by simp [Chain.unknown]
@[simp] theorem Chain.unknown_out_length (n d : Nat) : (Chain.unknown n d).out.length = n := by simp [Chain.unknown]

/-- Without an edge on clock or latch, a driven chain stays as it is. -/
theorem Chain.driven_no_edge (c : Chain) {r r' : Regs} (hc : risingEdge r.clock r'.clock = false)
    (hl : risingEdge r.latch r'.latch = false) : c.driven r r' = c := by
  simp [Chain.driven, hc, hl]

/-! ### Selecting a move -/

/-- What selecting leaves alone: everything but the script, the count of draws, and where HOST stands. -/
structure SelectFrame (s u : State) : Prop where
  params : u.params = s.params
  regs : u.regs = s.regs
  buf : u.buf = s.buf
  setall : u.setall = s.setall
  resp : u.resp = s.resp
  chain : u.chain = s.chain
  pinGrouping : u.host.pinGrouping = s.host.pinGrouping
  swMaxb : u.host.swMaxb = s.host.swMaxb
  kept : u.host.kept = s.host.kept

theorem SelectFrame.refl (s : State) : SelectFrame s s := ⟨rfl, rfl, rfl, rfl, rfl, rfl, rfl, rfl, rfl⟩

/-- HOST's next step: one case for each thing it can be in the middle of. -/
theorem hostMove_cases (s : State) :
    (∃ r, s.setall = some r ∧ hostMove s = (.setallNext r, s))
    ∨ (s.setall = none ∧ s.host.current = [] ∧ hostMove s = (.nothing, s))
    ∨ (∃ w rest, s.setall = none ∧ s.host.current = .send w :: rest
        ∧ hostMove s = (.word (.cmd w), s.setHost { s.host with current := rest }))
    ∨ (∃ slot rest, s.setall = none ∧ s.host.current = .readBack slot :: rest ∧ slot < 65536
        ∧ hostMove s = (.word (.cmd (cmdWord 0x05 (BitVec.ofNat 16 slot) 0)),
            s.setHost { s.host with current := rest, keepResp := true }))
    ∨ (∃ slot rest, s.setall = none ∧ s.host.current = .readBack slot :: rest ∧ 65536 ≤ slot
        ∧ hostMove s = (.keepZero, s.setHost { s.host with current := rest }))
    ∨ (∃ rest, s.setall = none ∧ s.host.current = .replicate :: rest
        ∧ hostMove s = (.replicate, s.setHost { s.host with current := rest })) := by
  rcases hs : s.setall with _ | r
  · rcases hc : s.host.current with _ | ⟨a, rest⟩
    · simp [hostMove, hs, hc]
    · cases a with
      | send w => simp [hostMove, hs, hc]
      | readBack slot =>
        by_cases h : slot < 65536
        · simp [hostMove, hs, hc, h]
        · simp [hostMove, hs, hc, h]
          omega
      | replicate => simp [hostMove, hs, hc]
  · simp [hostMove, hs]

theorem hostMove_frame (s : State) : SelectFrame s (hostMove s).2 := by
  rcases hostMove_cases s with ⟨_, _, e⟩ | ⟨_, _, e⟩ | ⟨_, _, _, _, e⟩ | ⟨_, _, _, _, _, e⟩ | ⟨_, _, _, _, _, e⟩
    | ⟨_, _, _, e⟩ <;> rw [e] <;> exact ⟨rfl, rfl, rfl, rfl, rfl, rfl, rfl, rfl, rfl⟩

/-- HOST's next step does not look at the registers. -/
theorem hostMove_setRegs (s : State) (r : Regs) :
    hostMove (s.setRegs r) = ((hostMove s).1, (hostMove s).2.setRegs r) := by
  unfold hostMove
  simp only [State.setRegs_setall, State.setRegs_host]
  split
  · rfl
  · rfl
  · rfl
  · split <;> rfl
  · rfl

/-- ENGINE's next step is the micro-operation of its phase, or none (R172). -/
theorem engineMove_cases (s : State) :
    (s.regs.phase ≠ .idle ∧ engineMove s = (.word (.phase s.regs.phase.code), s))
    ∨ (s.regs.phase = .idle ∧ engineMove s = (.nothing, s)) := by
  by_cases h : s.regs.phase = .idle <;> simp [engineMove, State.engineReady, h]

/-- Every move is HOST's, ENGINE's, or a turn's own, made on a state that differs in script and draws alone. -/
theorem select_cases (s : State) :
    ∃ u, (∃ ts d, u = { s with script := ts, draws := d }) ∧
      (select s = hostMove u ∨ select s = engineMove u
        ∨ (∃ w, s.hostBusy = false ∧ select s = (.word (.cmd w), u))
        ∨ (∃ o, s.hostBusy = false ∧ select s = (.hostOp o, u))
        ∨ select s = (.word (.tick 1), u) ∨ select s = (.word (.reset 1), u) ∨ select s = (.nothing, u)) := by
  have self : ∃ ts d, s = { s with script := ts, draws := d } := ⟨s.script, s.draws, rfl⟩
  have cut (rest : List Turn) : ∃ ts d, s.setScript rest = { s with script := ts, draws := d } := ⟨rest, s.draws, rfl⟩
  have more : ∃ ts d, s.drawn = { s with script := ts, draws := d } := ⟨s.script, s.draws + 1, rfl⟩
  rcases hs : s.script with _ | ⟨t, rest⟩
  · simp only [select, hs, idleMove]
    by_cases he : s.engineReady <;> by_cases hb : s.hostBusy <;> by_cases hf : Config.freeEngineFirst s.draws
    all_goals simp only [he, hb, hf, Bool.and_true, Bool.and_false, if_true, if_false, Bool.false_eq_true]
    · exact ⟨_, more, .inr (.inl rfl)⟩
    · exact ⟨_, more, .inl rfl⟩
    all_goals first
      | exact ⟨_, self, .inr (.inl rfl)⟩
      | exact ⟨_, self, .inl rfl⟩
  · cases t with
    | command w =>
      cases hb : s.hostBusy
      · exact ⟨_, cut rest, .inr (.inr (.inl ⟨w, rfl, by simp [select, hs, hb]⟩))⟩
      · exact ⟨_, self, .inl (by simp [select, hs, hb])⟩
    | hostOp o =>
      cases hb : s.hostBusy
      · exact ⟨_, cut rest, .inr (.inr (.inr (.inl ⟨o, rfl, by simp [select, hs, hb]⟩)))⟩
      · exact ⟨_, self, .inl (by simp [select, hs, hb])⟩
    | host => exact ⟨_, cut rest, .inl (by simp [select, hs])⟩
    | finishHost =>
      cases hb : s.hostBusy
      · exact ⟨_, cut rest, by simp [select, hs, hb]⟩
      · exact ⟨_, self, .inl (by simp [select, hs, hb])⟩
    | tick => exact ⟨_, cut rest, by simp [select, hs]⟩
    | reset => exact ⟨_, cut rest, by simp [select, hs]⟩
    | engine => exact ⟨_, cut rest, .inr (.inl (by simp [select, hs]))⟩
    | run =>
      cases he : s.engineReady
      · exact ⟨_, cut rest, by simp [select, hs, he]⟩
      · exact ⟨_, self, .inr (.inl (by simp [select, hs, he]))⟩

/-- Selecting a move changes nothing of the block, the chain, or the host software's variables. -/
theorem select_frame (s : State) : SelectFrame s (select s).2 := by
  obtain ⟨u, ⟨ts, d, rfl⟩, h⟩ := select_cases s
  rcases h with h | h | ⟨_, _, h⟩ | ⟨_, _, h⟩ | h | h | h <;> rw [h]
  · obtain ⟨a, b, c, d, e, f, g, i, j⟩ := hostMove_frame { s with script := ts, draws := d }
    exact ⟨a, b, c, d, e, f, g, i, j⟩
  · rcases engineMove_cases { s with script := ts, draws := d } with ⟨_, h⟩ | ⟨_, h⟩ <;> rw [h] <;>
      exact ⟨rfl, rfl, rfl, rfl, rfl, rfl, rfl, rfl, rfl⟩
  all_goals exact ⟨rfl, rfl, rfl, rfl, rfl, rfl, rfl, rfl, rfl⟩

/-- Where the selected word comes from: the command port, with no SETALL under way; a pin; or the phase register (R95 to
R97, R172). -/
theorem select_word {s : State} {pw : PortWord} (h : (select s).1 = .word pw) :
    (∃ w, pw = .cmd w ∧ s.setall = none) ∨ pw = .tick 1 ∨ pw = .reset 1
      ∨ (s.regs.phase ≠ .idle ∧ pw = .phase s.regs.phase.code) := by
  obtain ⟨u, ⟨ts, d, rfl⟩, hh⟩ := select_cases s
  rcases hh with e | e | ⟨w, hb, e⟩ | ⟨_, _, e⟩ | e | e | e <;> rw [e] at h
  · rcases hostMove_cases { s with script := ts, draws := d } with ⟨_, _, e⟩ | ⟨_, _, e⟩ | ⟨_, _, hn, _, e⟩
      | ⟨_, _, hn, _, _, e⟩ | ⟨_, _, _, _, _, e⟩ | ⟨_, _, _, e⟩ <;> rw [e] at h <;> cases h
    · exact .inl ⟨_, rfl, hn⟩
    · exact .inl ⟨_, rfl, hn⟩
  · rcases engineMove_cases { s with script := ts, draws := d } with ⟨hp, e⟩ | ⟨_, e⟩ <;> rw [e] at h <;> cases h
    exact .inr (.inr (.inr ⟨hp, rfl⟩))
  · cases h
    simp only [State.hostBusy, Bool.or_eq_false_iff, Option.isSome_eq_false_iff, Option.isNone_iff_eq_none] at hb
    exact .inl ⟨_, rfl, hb.1⟩
  · cases h
  · cases h; simp
  · cases h; simp
  · cases h

/-- What a move is, and where it leaves the host software: everything but the next action of a pseudo-operation leaves it
as it was. -/
theorem select_host (s : State) :
    ((select s).1 = .nothing ∨ (∃ r, (select s).1 = .setallNext r ∧ s.setall = some r)
        ∨ (∃ o, (select s).1 = .hostOp o ∧ s.host.current = []) ∨ ∃ pw, (select s).1 = .word pw)
      ∧ (select s).2.host = s.host
    ∨ (∃ w rest, (select s).1 = .word (.cmd w) ∧ s.host.current = .send w :: rest
        ∧ (select s).2.host = { s.host with current := rest })
    ∨ (∃ slot rest, (select s).1 = .word (.cmd (cmdWord 0x05 (BitVec.ofNat 16 slot) 0))
        ∧ s.host.current = .readBack slot :: rest
        ∧ (select s).2.host = { s.host with current := rest, keepResp := true })
    ∨ (∃ slot rest, (select s).1 = .keepZero ∧ s.host.current = .readBack slot :: rest
        ∧ (select s).2.host = { s.host with current := rest })
    ∨ (∃ rest, (select s).1 = .replicate ∧ s.host.current = .replicate :: rest
        ∧ (select s).2.host = { s.host with current := rest }) := by
  obtain ⟨u, ⟨ts, d, rfl⟩, hh⟩ := select_cases s
  rcases hh with e | e | ⟨w, _, e⟩ | ⟨_, hb, e⟩ | e | e | e <;> rw [e]
  · rcases hostMove_cases { s with script := ts, draws := d } with ⟨r, hr, e⟩ | ⟨_, _, e⟩ | ⟨w, rest, _, hc, e⟩
      | ⟨slot, rest, _, hc, _, e⟩ | ⟨slot, rest, _, hc, _, e⟩ | ⟨rest, _, hc, e⟩ <;> rw [e]
    · exact .inl ⟨.inr (.inl ⟨r, rfl, hr⟩), rfl⟩
    · exact .inl ⟨.inl rfl, rfl⟩
    · exact .inr (.inl ⟨w, rest, rfl, hc, rfl⟩)
    · exact .inr (.inr (.inl ⟨slot, rest, rfl, hc, rfl⟩))
    · exact .inr (.inr (.inr (.inl ⟨slot, rest, rfl, hc, rfl⟩)))
    · exact .inr (.inr (.inr (.inr ⟨rest, rfl, hc, rfl⟩)))
  · rcases engineMove_cases { s with script := ts, draws := d } with ⟨_, e⟩ | ⟨_, e⟩ <;> rw [e]
    · exact .inl ⟨.inr (.inr (.inr ⟨_, rfl⟩)), rfl⟩
    · exact .inl ⟨.inl rfl, rfl⟩
  · exact .inl ⟨.inr (.inr (.inr ⟨_, rfl⟩)), rfl⟩
  · simp only [State.hostBusy, Bool.or_eq_false_iff, Bool.not_eq_false', List.isEmpty_iff] at hb
    exact .inl ⟨.inr (.inr (.inl ⟨_, rfl, hb.2⟩)), rfl⟩
  · exact .inl ⟨.inr (.inr (.inr ⟨_, rfl⟩)), rfl⟩
  · exact .inl ⟨.inr (.inr (.inr ⟨_, rfl⟩)), rfl⟩
  · exact .inl ⟨.inl rfl, rfl⟩

/-! ### Performing a move -/

theorem mapNext_eq_next {f : State → State} {o : Outcome} {t : State} (h : mapNext f o = .next t) :
    ∃ u, o = .next u ∧ t = f u := by
  cases o with
  | next u => exact ⟨u, rfl, by injection h with h; exact h.symm⟩
  | fault e => cases h
  | refused e => cases h

theorem mapNext_eq_fault {f : State → State} {o : Outcome} {e : Fault} (h : mapNext f o = .fault e) : o = .fault e := by
  cases o <;> simp_all [mapNext]

theorem mapNext_eq_refused {f : State → State} {o : Outcome} {e : Refusal} (h : mapNext f o = .refused e) :
    o = .refused e := by
  cases o <;> simp_all [mapNext]

/-- A word at a port: its operation is performed, or nothing happens to the block (R98, R172). -/
theorem runWord_next {pw : PortWord} {s t : State} (h : runWord pw s = .next t) :
    (∃ i u, decode pw = .ok i ∧ exec i s = .next u ∧ t = u.hostNotes i)
    ∨ ((∀ i, decode pw ≠ .ok i) ∧ (t = s ∨ t = s.respUndefined)) := by
  unfold runWord at h
  split at h
  · rename_i i hd
    obtain ⟨u, hu, rfl⟩ := mapNext_eq_next h
    exact .inl ⟨i, u, hd, hu, rfl⟩
  all_goals first
    | (rename_i hd; injection h with h; exact .inr ⟨by simp [hd], by simp [h]⟩)
    | cases h

/-- What performing a move does to the block: an operation of the opcode table, an iteration of a SETALL, or nothing but
a new level on the response port and a new position of the host software. -/
theorem perform_next {m : Move} {s t : State} (h : perform m s = .next t) :
    (∃ pw i u, m = .word pw ∧ decode pw = .ok i ∧ exec i s = .next u ∧ t = u.hostNotes i)
    ∨ (∃ r, m = .setallNext r ∧ t = setallWrite r.next r.value s)
    ∨ (t = s ∨ t = s.respUndefined ∨ ∃ h', t = s.setHost h') := by
  cases m with
  | word pw =>
    rcases runWord_next h with ⟨i, u, hd, he, ht⟩ | ⟨_, h | h⟩
    · exact .inl ⟨pw, i, u, rfl, hd, he, ht⟩
    · exact .inr (.inr (.inl h))
    · exact .inr (.inr (.inr (.inl h)))
  | setallNext r => injection h with h; exact .inr (.inl ⟨r, rfl, h.symm⟩)
  | hostOp o => exact .inr (.inr (.inr (.inr (performOp_setHost h))))
  | replicate =>
    obtain ⟨_, _, _, rfl⟩ := replicateKept_next h
    exact .inr (.inr (.inr (.inr ⟨_, rfl⟩)))
  | keepZero => injection h with h; exact .inr (.inr (.inr (.inr ⟨_, h.symm⟩)))
  | nothing => injection h with h; exact .inr (.inr (.inl h.symm))

/-- A step that answers a next state: the selected move was performed and the chain reacted. -/
theorem step_next {s t : State} (h : step s = .next t) :
    ∃ u, perform (select s).1 (select s).2 = .next u ∧ t = chainReact s u :=
  mapNext_eq_next h

theorem step_fault {s : State} {e : Fault} (h : step s = .fault e) : perform (select s).1 (select s).2 = .fault e :=
  mapNext_eq_fault h

theorem step_refused {s : State} {e : Refusal} (h : step s = .refused e) :
    perform (select s).1 (select s).2 = .refused e :=
  mapNext_eq_refused h

/-! ### Several steps -/

@[simp] theorem steps_zero (s : State) : steps 0 s = .next s := rfl

theorem steps_succ (n : Nat) (s : State) :
    steps (n + 1) s = match step s with
      | .next t => steps n t
      | .fault e => .fault e
      | .refused e => .refused e := by
  refine (Host.Core.run.eq_2 Sys2Proof.core s n).trans ?_
  have : Sys2Proof.core.step s = step s := rfl
  rw [this]
  cases step s <;> rfl

theorem steps_succ_next {n : Nat} {s t : State} (h : step s = .next t) : steps (n + 1) s = steps n t := by
  simp [steps_succ, h]

/-- Steps in two parts. -/
theorem steps_add {m n : Nat} {s t : State} (h : steps m s = .next t) : steps (m + n) s = steps n t := by
  induction m generalizing s with
  | zero => injection h with h; simp [h]
  | succ m ih =>
    rw [Nat.succ_add, steps_succ]
    rw [steps_succ] at h
    split at h <;> rename_i hs
    · exact ih h
    · cases h
    · cases h

end Sys2Proof.Machine
end

