-- ==== Sys2Proof/Tests/Slice0.lean ====
section
/-! SUPPORT. Tests of single steps. Expected results come from the vectors V-… of spec/95_test_vectors.md and the encoding
rules, never from the model. After them, for every obligation with hypotheses, a state and operands that meet them. -/

open Sys2Proof Sys2Proof.Machine

namespace Sys2Proof.Tests.Slice0

/-! ### Small states -/

/-- The parameters `95_test_vectors.md` uses, `n` registers. -/
def params (n : Nat) : Params := ⟨n, false, false, 1000, false, false⟩

/-- Enabled, driven, in a pass that compares against `cmp = counter = 2`; `maxb = 3`, `presc = pcount = 3`. -/
def running (ph : Phase) (idx : BitVec 16) (clock latch : Bool) : Regs :=
  ⟨true, true, true, 2, 3, 3, 3, ph, idx, 2, false, clock, latch⟩

/-- Enabled, driven, between passes. -/
def waiting (pcount : BitVec 17) : Regs := ⟨true, true, false, 2, 3, 3, pcount, .idle, 0, 0, false, true, true⟩

/-- The buffer of V-B1 to V-B8. -/
def buf8 : Memory := [(0, 10), (1, 11), (2, 12), (3, 13), (4, 14), (5, 15), (6, 16), (7, 17)]

/-- `N_REGS = 1`, buffer `10 .. 17` (the start state of V-B1 to V-B8), chain all off, `pinGrouping = 1`, `swMaxb = 255`. -/
def at1 (r : Regs) (ts : List Turn) : State where
  params := params 1
  regs := r
  buf := buf8
  setall := none
  resp := 0
  chain := ⟨List.replicate 8 false, List.replicate 8 false⟩
  host := ⟨some 1, 255, [], false, []⟩
  script := ts
  draws := 0

/-- The next state, if there is one. -/
def nextOf : Outcome → Option State
  | .next s => some s
  | _ => none

/-- The registers of the next state. -/
def regsOf (o : Outcome) : Option Regs := (nextOf o).map State.regs

/-- Slot `a` of the next state. -/
def slotOf (o : Outcome) (a : Nat) : Option Byte := (nextOf o).bind (fun s => s.buf.read? a)

/-! ### Decoding: words written out from the spec's encodings -/

/-- V-E1: `0x01 ++ 1000 ++ 255`. -/
theorem test_decode_start : decode (.cmd 0b00000001_0000001111101000_11111111) = .ok (.start 1000 255) := by decide
/-- V-E4. -/
theorem test_decode_stop : decode (.cmd 0b00000010_0000000000000000_00000000) = .ok .stop := by decide
/-- V-E10: ignored fields. -/
theorem test_decode_stop_ignores : decode (.cmd 0x02FFFFFF) = .ok .stop := by decide
/-- V-E5: index 7, value 200. -/
theorem test_decode_setone : decode (.cmd 0b00000011_0000000000000111_11001000) = .ok (.setone 7 200) := by decide
/-- V-E11: `a` ignored. -/
theorem test_decode_setall : decode (.cmd 0x04ABCD07) = .ok (.setall 7) := by decide
/-- V-E9. -/
theorem test_decode_getone : decode (.cmd 0b00000101_0000000000000010_00000000) = .ok (.getone 2) := by decide
/-- V-E12. -/
theorem test_decode_reserved : decode (.cmd 0xFF123456) = .error (.reservedOpcode 0xFF) := by decide
/-- R94: each pin selects its own event. -/
theorem test_decode_pins :
    decode (.tick 1) = .ok .tick ∧ decode (.reset 1) = .ok .reset ∧ decode (.tick 0) = .error .notAsserted := by decide
/-- R99: the six codes, with IDLE and 7 left over. -/
theorem test_decode_phases :
    decode (.phase 0b001) = .ok .pLatchlo ∧ decode (.phase 0b010) = .ok .pData ∧ decode (.phase 0b011) = .ok .pClklo
      ∧ decode (.phase 0b100) = .ok .pClkhi ∧ decode (.phase 0b101) = .ok .pLatchhi
      ∧ decode (.phase 0b110) = .ok .pFinish ∧ decode (.phase 0b000) = .error .phaseIdle
      ∧ decode (.phase 0b111) = .error .phaseUnused := by decide
/-- V-E3, V-E6, V-E8, V-E13. -/
theorem test_encode_words :
    encode (.start 65535 0) = .cmd 0x01FFFF00 ∧ encode (.setone 65535 255) = .cmd 0x03FFFFFF
      ∧ encode (.setall 255) = .cmd 0x040000FF ∧ encode (.setone 1 10) = .cmd 0x0300010A := by decide
/-- No two rows of the opcode table agree on port, and on value under a common mask (R93). -/
theorem test_rows_disjoint :
    opcodeTable.Pairwise (fun r q => r.port ≠ q.port ∨ r.value &&& q.mask ≠ q.value &&& r.mask) := by decide

/-- One row of each port as the host numbers it: a 32-bit command word, a phase code, the pins' word. -/
theorem test_table_words :
    decodeTableWord 32 0x01000000 = some (.start 0 0) ∧ decodeTableWord 32 0x05000000 = some (.getone 0)
      ∧ decodeTableWord 8 1 = some .tick ∧ decodeTableWord 8 2 = some .pData ∧ decodeTableWord 8 6 = some .pFinish
      ∧ decodeTableWord 32 0x06000000 = none ∧ decodeTableWord 8 7 = none := by decide

/-- The step after `withFetchWord` performs the word: STOP, TICK, P_CLKLO, right after reset. -/
theorem test_fetch_words :
    ((regsOf (step (State.reset.withFetchWord 32 0x0100FF03))).map Regs.maxb = some 3)
      ∧ regsOf (step (State.reset.withFetchWord 8 1)) = some Regs.reset
      ∧ (regsOf (step (State.reset.withFetchWord 8 3))).map Regs.phase = some .clkHigh := by decide

/-! ### Well-formedness: an ill-formed term for each check, refused -/

/-- `N_REGS = 0` and `N_REGS = 8193` are outside 1 .. 8192 (R8). -/
theorem test_wf_registers : (params 0).wellFormed = false ∧ (params 8193).wellFormed = false
    ∧ (params 8192).wellFormed = true := by decide
/-- `BASE_RATE = 0` (R8). -/
theorem test_wf_base_rate : { params 1 with baseRate := 0 }.wellFormed = false := by decide

/-- The refusal of an outcome. -/
def refusalOf : Outcome → Option Refusal
  | .refused e => some e
  | _ => none

/-- U11: SETPINGROUPING 0. -/
theorem test_refuse_grouping_zero :
    refusalOf (performOp (.setPinGrouping 0) (at1 (waiting 3) [])) = some .groupingZero := by decide
/-- U17: a grouped write before SETPINGROUPING. -/
theorem test_refuse_grouping_unset :
    refusalOf (performOp (.setGroupOf2 0 1 2 0) State.reset) = some .groupingUnset := by decide
/-- U12, V-H28: hue 360. -/
theorem test_refuse_hue : refusalOf (performOp (.setHsv 0 360 1 1 0) (at1 (waiting 3) [])) = some .hueOutOfRange := by
  decide
/-- U18: a pseudo-operation without an expansion. -/
theorem test_refuse_expansion : refusalOf (performOp .oneByOneSlow (at1 (waiting 3) [])) = some .noExpansion := by decide

/-! ### One operation at a time -/

/-- V-S1: START right after reset. -/
theorem test_start_after_reset : regsOf (exec (.start 1000 255) State.reset)
    = some ⟨true, true, false, 0, 255, 2, 2, .idle, 0, 0, false, false, false⟩ := by decide
/-- R210, D10: `floor(65535 / 1) + 1 = 65536` needs the 17th bit. -/
theorem test_start_widest : (regsOf (exec (.start 65535 0) { State.reset with params := { params 1 with baseRate := 1 } })).map
    Regs.presc = some 65536 := by decide
/-- P2: STOP during a pass clears `enable` and nothing else. -/
theorem test_stop_in_pass : regsOf (exec .stop (at1 (running .clkLow 6 true false) []))
    = some { running .clkLow 6 true false with enable := false } := by decide
/-- V-B2: the last valid slot. -/
theorem test_setone_last : slotOf (exec (.setone 7 200) (at1 (waiting 3) [])) 7 = some 200 := by decide
/-- V-B4: no wrap. -/
theorem test_setone_out : (nextOf (exec (.setone 65535 1) (at1 (waiting 3) []))).map State.buf
    = some (at1 (waiting 3) []).buf := by decide
/-- V-B6, first step: slot 0 takes 5, slot 1 not yet; the rest is under way. -/
theorem test_setall_first : slotOf (exec (.setall 5) (at1 (waiting 3) [])) 0 = some 5
    ∧ slotOf (exec (.setall 5) (at1 (waiting 3) [])) 1 = some 11
    ∧ (nextOf (exec (.setall 5) (at1 (waiting 3) []))).map State.setall = some (some ⟨1, 5⟩) := by decide
/-- V-B7, V-B8. -/
theorem test_getone : (nextOf (exec (.getone 2) (at1 (waiting 3) []))).map State.resp = some 12
    ∧ (nextOf (exec (.getone 8) (at1 (waiting 3) []))).map State.resp = some 0 := by decide
/-- V-T7. -/
theorem test_tick_begins : regsOf (exec .tick (at1 (waiting 1) []))
    = some { waiting 1 with pcount := 3, busy := true, cmp := 2, idx := 7, phase := .latchLow } := by decide
/-- V-T3: after RESET nothing counts, in particular not to `2^17 - 1`. -/
theorem test_tick_after_reset : regsOf (exec .tick State.reset) = some Regs.reset := by decide
/-- R260: RESET in mid-pass. -/
theorem test_reset_in_pass : regsOf (exec .reset (at1 (running .clkHigh 3 false false) []))
      = some ⟨false, false, false, 0, 0, 0, 0, .idle, 0, 0, false, false, false⟩
    ∧ slotOf (exec .reset (at1 (running .clkHigh 3 false false) [])) 7 = some 17 := by decide
/-- V-M1. -/
theorem test_latchlo : regsOf (exec .pLatchlo (at1 (running .latchLow 7 true true) []))
    = some (running .data 7 true false) := by decide
/-- V-M10: the comparison is unsigned. -/
theorem test_data_unsigned : compareBit (params 1) 128 127 = true := by decide
/-- V-M4, V-M5: equal is off, and on when inverted. -/
theorem test_data_equal : compareBit (params 1) 3 3 = false
    ∧ compareBit { params 1 with invert := true } 3 3 = true := by decide
/-- V-M11. -/
theorem test_clklo : regsOf (exec .pClklo (at1 (running .clkLow 5 true false) []))
    = some (running .clkHigh 5 false false) := by decide
/-- V-M12, V-M13: loop control. -/
theorem test_clkhi_loop : regsOf (exec .pClkhi (at1 (running .clkHigh 5 false false) [])) = some (running .data 4 true false)
    ∧ regsOf (exec .pClkhi (at1 (running .clkHigh 0 false false) [])) = some (running .latchHigh 0 true false) := by decide
/-- V-M14, V-M15, V-M16, V-M19: the offset and its modulus, at a register boundary only. -/
theorem test_clkhi_offset :
    cmpAfterShift { params 2 with loadBalance := true } { Regs.reset with idx := 8, cmp := 12, maxb := 15 } = 4
      ∧ cmpAfterShift { params 2 with loadBalance := true, lbMod256 := true } { Regs.reset with idx := 8, cmp := 12, maxb := 15 }
          = 20
      ∧ cmpAfterShift { params 2 with loadBalance := true } { Regs.reset with idx := 9, cmp := 12, maxb := 15 } = 12
      ∧ cmpAfterShift { params 2 with loadBalance := true } { Regs.reset with idx := 8, cmp := 5, maxb := 7 } = 5 := by decide
/-- V-M21. -/
theorem test_latchhi : regsOf (exec .pLatchhi (at1 (running .latchHigh 0 true false) []))
    = some (running .finish 0 true true) := by decide
/-- V-M22. -/
theorem test_finish : regsOf (exec .pFinish (at1 (running .finish 0 true true) []))
    = some { running .finish 0 true true with counter := 3, busy := false, phase := .idle } := by decide
/-- V-M24: no ninth bit. -/
theorem test_finish_wraps : advanceCounter 255 255 = 0 ∧ advanceCounter 3 3 = 0 ∧ advanceCounter 0 0 = 0 := by decide

/-! ### The step around the operation -/

/-- V-P3, step 4: the rising clock edge shifts the level of the data line into stage 0. -/
theorem test_clock_edge_shifts :
    (nextOf (step (at1 { running .clkHigh 7 false false with data := true } [.engine]))).map (fun t => t.chain.sr)
      = some [true, false, false, false, false, false, false, false] := by decide
/-- V-M21, R73: the rising latch edge presents the stages. -/
theorem test_latch_edge_presents :
    (nextOf (step { at1 (running .latchHigh 0 true false) [.engine] with chain := ⟨[true, false], [false, false]⟩ })).map
      (fun t => t.chain.out) = some [true, false] := by decide
/-- R95: a command waits while a SETALL is under way; the step performs the SETALL's next iteration. -/
theorem test_command_waits :
    (nextOf (step { at1 (waiting 3) [.command 0x02000000] with setall := some ⟨3, 5⟩ })).map
      (fun t => (t.buf.read? 3, t.setall, t.regs.enable, t.script)) = some (some 5, some ⟨4, 5⟩, true, [.command 0x02000000]) := by
  decide

/-! ### The host software and the script -/

/-- V-H3: `skip = 6`, `base = 9`; the last slot is valid. -/
theorem test_group_of_3 : groupWrites (params 2) 3 3 [1, 2, 3] 0
    = [.send 0x03000901, .send 0x03000C02, .send 0x03000F03] := by decide
/-- V-H4: `last = 16`, nothing sent. -/
theorem test_group_all_or_nothing : groupWrites (params 2) 3 4 [1, 2, 3] 0 = [] := by decide
/-- V-H11. -/
theorem test_rgb : rgbWrites (params 1) 1 255 0 255 128 1 0 = [.send 0x030000FE, .send 0x0300017F, .send 0x03000200] := by
  decide
/-- V-H12: the commands of SETALLRGB on two groups. -/
theorem test_all_rgb : allRgbWrites (params 1) 1 255 255 0 128 = [.send 0x030000FE, .send 0x03000100, .send 0x0300027F,
    .send 0x030003FE, .send 0x03000400, .send 0x0300057F] := by decide
/-- V-H26, V-H25, V-H22, V-H17. -/
theorem test_hsv : hsvToRgb 45 100 50 = some (50, 45, 30) ∧ hsvToRgb 359 255 255 = some (255, 0, 4)
    ∧ hsvToRgb 180 128 255 = some (126, 255, 255) ∧ hsvToRgb 0 0 255 = some (255, 254, 254) := by decide
/-- V-H13, V-H14, V-H15: the slots that are read back. -/
theorem test_read_back : readBackSlots (params 1) 2 = [0, 2, 4]
    ∧ readBackSlots { params 1 with hsvReadbackFixed := true } 2 = [0, 1, 2] := by decide
/-- R102: a command line with a comment, a directive, a pseudo-instruction line, and a line that is none. -/
theorem test_script_lines :
    parseLine ("SETONE 7, 0xC8 ; 0x030007C8".toList) = some (.command (.setone 7 200))
      ∧ parseLine ("  STEP 13".toList) = some (.step 13)
      ∧ parseLine ("SETGROUPOF3 3, 1, 2, 3, 0".toList) = some (.pseudo (.setGroupOf3 3 1 2 3 0))
      ∧ parseLine ("START 1000".toList) = none := by decide
/-- R102: the turns of a script. -/
theorem test_script_turns : parseScript ["START 0, 3".toList, "TICK".toList, "STEP 2".toList, "RUN".toList]
    = some [.command 0x01000003, .finishHost, .tick, .engine, .engine, .run] := by decide

/-! ### Witnesses: states that meet the hypotheses of the obligations -/

/-- Small states with nothing under way in HOST meet the invariant when their registers do. -/
theorem inv_at1 {r : Regs} (h : RegsInv (params 1) r) (ts : List Turn) : (at1 r ts).Inv where
  params := rfl
  regs := h
  buf_wf := show buf8.wf by decide
  buf_in := show ∀ c ∈ buf8, c.1 < (params 1).nch by decide
  setall_next := fun _ h => nomatch h
  chain_length := ⟨rfl, rfl⟩
  grouping_pos := show some 1 ≠ some 0 by decide
  host_ok := ⟨rfl, trivial⟩
  grouping_set := fun h => nomatch h

/-- A pass about to start, in a state that meets the invariant. -/
theorem regs_latchLow : RegsInv (params 1) (running .latchLow 7 true true) := by constructor <;> decide
/-- A pass about to read its last channel but one of eight. -/
theorem regs_data : RegsInv (params 1) (running .data 1 true false) := by constructor <;> decide

/-- EncodeInvertsDecodeButForIgnoredFields: two words of one operation. -/
theorem witness_ignored_fields : decode (.cmd 0x02FFFFFF) = .ok .stop
    ∧ (0x02000000#32) &&& usedBits .stop = 0x02FFFFFF#32 &&& usedBits .stop := by decide
/-- DecodeFollowsTheOpcodeTable: a row, a word it selects and one it does not. -/
theorem witness_table : ∃ r ∈ opcodeTable, r.selects (.phase 6) = true ∧ r.selects (.phase 7) = false :=
  ⟨⟨"P_FINISH", .phase, 0x6, 0x7⟩, by decide⟩
/-- ReservedWordsChangeNothing: op 0 and op 6, the neighbours of the five, with the lines driven. -/
theorem witness_reserved : ∀ w ∈ [(0x00000000 : Word), 0x06000000],
    (at1 (waiting 3) [.command w]).script = [.command w] ∧ (at1 (waiting 3) [.command w]).hostBusy = false
      ∧ cmdOp w ∉ [1, 2, 3, 4, 5] ∧ (at1 (waiting 3) [.command w]).regs.oe = true :=
  fun w hw => ⟨rfl, rfl, by
    rcases List.mem_cons.mp hw with rfl | hw
    · decide
    · rw [List.mem_singleton.mp hw]; decide, rfl⟩
/-- ResetMakesTheChainUnknown. -/
theorem witness_reset_turn : (at1 (running .clkHigh 3 false false) [.reset]).script = .reset :: [] := rfl
/-- SetoneWritesOneSlot, GetoneReadsOneSlot: the last index inside and the first outside. -/
theorem witness_index : (7#16).toNat < (at1 (waiting 3) []).params.nch ∧ (at1 (waiting 3) []).params.nch ≤ (8#16).toNat := by
  decide
/-- SetallFillsTheBuffer. -/
theorem witness_setall : (at1 (waiting 3) (.command 0x04000005 :: List.replicate 7 .host)).params.wellFormed = true
    ∧ (at1 (waiting 3) (.command 0x04000005 :: List.replicate 7 .host)).hostBusy = false
    ∧ (at1 (waiting 3) (.command 0x04000005 :: List.replicate 7 .host)).script
        = .command (cmdWord 0x04 0 5) :: (List.replicate (8 - 1) .host ++ []) := by decide
/-- SetallEndsByItsWritesOrByReset: the three ways a step can treat a SETALL that is at its last slot. -/
theorem witness_setall_under_way : ∀ turn ∈ [Turn.tick, .host, .reset],
    (nextOf (step { at1 (waiting 3) [turn] with setall := some ⟨7, 5⟩ })).isSome = true := by decide
/-- BufferCommandsIgnoreTheRegisters: one operation of each of its three shapes. -/
theorem witness_buffer_commands : (∃ index value, Instr.setone 8 1 = .setone index value)
    ∧ (∃ value, Instr.setall 5 = .setall value) ∧ ∃ index, Instr.getone 7 = .getone index := by
  exact ⟨⟨8, 1, rfl⟩, ⟨5, rfl⟩, ⟨7, rfl⟩⟩
/-- ResponsesRevealTheBufferAlone: one buffer, two positions of a pass. -/
theorem witness_responses : (at1 (running .data 1 true false) []).params = (at1 (waiting 3) []).params
    ∧ (at1 (running .data 1 true false) []).buf = (at1 (waiting 3) []).buf
    ∧ (at1 (running .data 1 true false) []).regs ≠ (at1 (waiting 3) []).regs := by decide
/-- StartConfiguresAndEnables and RestartLeavesWhatOneStartLeaves; StartDuringAPassIsRefused, DroppedTickChangesNothing. -/
theorem witness_busy : (at1 (waiting 3) []).regs.busy = false ∧ (at1 (running .data 1 true false) []).regs.busy = true := by
  decide
/-- StopNeverAbortsAPass: ENGINE's turn in a pass. -/
theorem witness_engine_turn : (at1 (running .data 1 true false) [.engine]).script = .engine :: []
    ∧ (at1 (running .data 1 true false) [.engine]).regs.phase ≠ .idle := by decide
/-- StopNeverAbortsAPass, PassStepsLeaveTheRestAlone: each micro-operation answers a next state. -/
theorem witness_micro : ∀ i ∈ [Instr.pLatchlo, .pData, .pClklo, .pClkhi, .pLatchhi, .pFinish],
    (nextOf (exec i (at1 (running .data 1 true false) []))).isSome = true := by decide
/-- ConfigurationChangesOnlyByStartOrReset: each of the two changes `maxb`. -/
theorem witness_configuration :
    (regsOf (step (at1 (waiting 3) [.command 0x01000009]))).map Regs.maxb = some 9
      ∧ (regsOf (step (at1 (waiting 3) [.reset]))).map Regs.maxb = some 0 ∧ (at1 (waiting 3) []).regs.maxb = 3 := by decide
/-- TickHandlerCases: a state for each of the four cases. -/
theorem witness_tick_cases : { waiting 1 with enable := false }.enable = false
    ∧ (running .data 1 true false).enable = true ∧ (running .data 1 true false).busy = true
    ∧ (waiting 2).enable = true ∧ (waiting 2).busy = false ∧ (waiting 2).pcount - 1 ≠ 0#17
    ∧ (waiting 1).enable = true ∧ (waiting 1).busy = false ∧ (waiting 1).pcount - 1 = 0#17 := by decide
/-- OverrunTicksLeaveNoTrace, two ticks. -/
theorem witness_overrun : (at1 (running .data 1 true false) [.tick, .tick]).regs.busy = true
    ∧ (at1 (running .data 1 true false) [.tick, .tick]).regs.oe = true
    ∧ (at1 (running .data 1 true false) [.tick, .tick]).script = List.replicate 2 .tick ++ [] := by decide
/-- PrescalerCountsTicksToAPass, two ticks to the pass. -/
theorem witness_prescaler : (waiting 2).enable = true ∧ (waiting 2).busy = false ∧ 1 ≤ (waiting 2).pcount.toNat
    ∧ (at1 (waiting 2) [.tick, .tick]).script = List.replicate (waiting 2).pcount.toNat .tick ++ [] := by decide
/-- OnlyAnAcceptedTickBeginsAPass. -/
theorem witness_accepted_tick : (at1 (waiting 1) [.tick]).regs.busy = false
    ∧ (regsOf (step (at1 (waiting 1) [.tick]))).map Regs.busy = some true := by decide
/-- DataStepEffect and DataStepOutsideTheBufferFaults: the last channel and the first index beyond it. -/
theorem witness_data_index : (running .data 7 true false).idx.toNat < (params 1).nch
    ∧ (params 1).nch ≤ (running .data 8 true false).idx.toNat := by decide
/-- ClockHighEffect: the last channel of a pass, and the one before it. -/
theorem witness_clock_high : (running .clkHigh 0 false false).idx = 0#16 ∧ (running .clkHigh 1 false false).idx ≠ 0#16 := by
  decide
/-- PolarityFollowsTheInvertFlag, ComparisonEdgeValues. -/
theorem witness_comparison : { params 1 with invert := true }.invert = true ∧ (params 1).invert = false
    ∧ (254 : Byte) ≠ 255 := by decide
/-- StepPerformsTheSelectedWord. -/
theorem witness_selected : (select (at1 (waiting 1) [.tick])).1 = .word (.tick 1) ∧ decode (.tick 1) = .ok .tick := by decide
/-- TurnsPresentTheirWords: HOST free and HOST busy, ENGINE with and without a step, the pins. -/
theorem witness_turns : (at1 (waiting 1) [.command 0]).hostBusy = false
    ∧ { at1 (waiting 1) [.command 0] with setall := some ⟨1, 5⟩ }.hostBusy = true
    ∧ { at1 (waiting 1) [.command 0] with host := ⟨some 1, 255, [.send 0], false, []⟩ }.hostBusy = true
    ∧ (running .finish 0 true true).phase ≠ .idle ∧ (waiting 1).phase = .idle
    ∧ (at1 (waiting 1) [.tick]).script = .tick :: [] ∧ (at1 (waiting 1) [.reset]).script = .reset :: [] := by decide
/-- StatusBitsChangeOnlyAsListed: each bit set and cleared. -/
theorem witness_status_bits :
    (regsOf (step { State.reset with script := [.command 0x01000003] })).map (fun r => (r.enable, r.oe)) = some (true, true)
      ∧ (State.reset.regs.enable, State.reset.regs.oe) = (false, false)
      ∧ (regsOf (step (at1 (waiting 3) [.command 0x02000000]))).map Regs.enable = some false
      ∧ (regsOf (step (at1 (waiting 3) [.reset]))).map Regs.oe = some false
      ∧ (regsOf (step (at1 (running .finish 0 true true) [.engine]))).map Regs.busy = some false
      ∧ ((waiting 3).enable, (waiting 3).oe, (running .finish 0 true true).busy) = (true, true, true) := by decide
/-- SlotsChangeOnlyByBufferWrites: the last slot by SETONE, slot 0 by SETALL, the last slot by a SETALL under way. -/
theorem witness_slots :
    slotOf (step (at1 (waiting 3) [.command 0x03000705])) 7 = some 5
      ∧ slotOf (step (at1 (waiting 3) [.command 0x04000005])) 0 = some 5
      ∧ slotOf (step { at1 (waiting 3) [.host] with setall := some ⟨7, 5⟩ }) 7 = some 5
      ∧ (select { at1 (waiting 3) [.host] with setall := some ⟨7, 5⟩ }).1 = .setallNext ⟨7, 5⟩
      ∧ (at1 (waiting 3) []).memRead 7 = 17 ∧ (at1 (waiting 3) []).memRead 0 = 10 := by decide
/-- StepKeepsTheInvariant, StepNeverFaults: a state in a pass that steps. -/
theorem witness_invariant : (at1 (running .latchLow 7 true true) [.engine]).Inv
    ∧ (nextOf (step (at1 (running .latchLow 7 true true) [.engine]))).isSome = true :=
  ⟨inv_at1 regs_latchLow _, by decide⟩
/-- `at1` before the first SETPINGROUPING. -/
def ungrouped (r : Regs) (ts : List Turn) : State := { at1 r ts with host := ⟨none, 255, [], false, []⟩ }

theorem inv_ungrouped {r : Regs} (h : RegsInv (params 1) r) (ts : List Turn) : (ungrouped r ts).Inv :=
  { inv_at1 h ts with
    grouping_pos := show (none : Option Nat) ≠ some 0 by decide
    host_ok := ⟨rfl, trivial⟩
    grouping_set := fun h => nomatch h }

/-- RefusalsAreTheSpecsGaps, a START during a pass. -/
theorem witness_refusals_start : (at1 (running .latchLow 7 true true) [.command 0x01000003]).Inv
    ∧ refusalOf (step (at1 (running .latchLow 7 true true) [.command 0x01000003])) = some .startWhileBusy :=
  ⟨inv_at1 regs_latchLow _, by decide⟩
/-- RefusalsAreTheSpecsGaps, each of the four names of a pseudo-operation's refusal; 360 is the first hue without a colour. -/
theorem witness_refusals_host : (∀ ts, (at1 (running .latchLow 7 true true) ts).Inv)
    ∧ (∀ ts, (ungrouped (running .latchLow 7 true true) ts).Inv)
    ∧ refusalOf (step (at1 (running .latchLow 7 true true) [.hostOp (.setPinGrouping 0)])) = some .groupingZero
    ∧ refusalOf (step (ungrouped (running .latchLow 7 true true) [.hostOp (.setAllRgb 1 2 3)])) = some .groupingUnset
    ∧ refusalOf (step (at1 (running .latchLow 7 true true) [.hostOp (.setHsv 0 360 1 1 0)])) = some .hueOutOfRange
    ∧ refusalOf (step (at1 (running .latchLow 7 true true) [.hostOp (.setAllHsv 360 1 1)])) = some .hueOutOfRange
    ∧ refusalOf (step (at1 (running .latchLow 7 true true) [.hostOp .oneByOneFast])) = some .noExpansion :=
  ⟨inv_at1 regs_latchLow, inv_ungrouped regs_latchLow, by decide, by decide, by decide, by decide, by decide⟩
/-- DataStepDrivesThePassBit. -/
theorem witness_data_step : (at1 (running .data 1 true false) []).Inv
    ∧ (at1 (running .data 1 true false) []).regs.phase = .data := ⟨inv_at1 regs_data _, rfl⟩
/-- PassPresentsItsFrame: `3 * 8 + 3 = 27` turns of ENGINE (V-P1). -/
theorem witness_pass : (at1 (running .latchLow 7 true true) (List.replicate 27 .engine)).Inv
    ∧ (at1 (running .latchLow 7 true true) (List.replicate 27 .engine)).regs.phase = .latchLow
    ∧ (at1 (running .latchLow 7 true true) (List.replicate 27 .engine)).script
        = List.replicate (3 * (params 1).nch + 3) .engine ++ [] := ⟨inv_at1 regs_latchLow _, rfl, by decide⟩
/-- ChainHoldsTheBitsInWireOrder. -/
theorem witness_chain : [true, false].length = (Chain.mk [false, false] [false, false]).sr.length := rfl
/-- OutputsChangeOnlyAtTheLatchEdge: an output that changes, the lines driven. -/
theorem witness_latch_edge :
    (nextOf (step { at1 (running .latchHigh 0 true false) [.engine] with chain := ⟨[true, false], [false, false]⟩ })).map
      (fun t => (t.regs.oe, decide (t.chain.out ≠ [false, false]))) = some (true, true)
    ∧ (running .latchHigh 0 true false).oe = true := by decide
/-- DutyCycleLaw: without load balancing, and with it at the default modulus. -/
theorem witness_duty : (params 2).loadBalance = false
    ∧ ({ params 2 with loadBalance := true }.loadBalance = true ∧ { params 2 with loadBalance := true }.lbMod256 = false) := by
  decide
/-- OtherModulusBreaksTheDutyCycle. -/
theorem witness_other_modulus : { params 2 with loadBalance := true, lbMod256 := true }.nRegs = 2
    ∧ { params 2 with loadBalance := true, lbMod256 := true }.invert = false ∧ (15#8).toNat ≤ 15 ∧ 7 < 8
    ∧ ∀ i, (fun _ : Nat => (4 : Byte)) i = 4 := ⟨rfl, rfl, by decide, by decide, fun _ => rfl⟩
/-- SetPinGroupingSetsTheVariable: the least grouping, and 0. -/
theorem witness_grouping : 1 ≤ 1 ∧ (0 : Nat) = 0
    ∧ (nextOf (performOp (.setPinGrouping 1) State.reset)).map (fun t => t.host.pinGrouping) = some (some 1) := by decide
/-- GroupedWritesAllOrNothing: the last target on the last slot (V-H3), and on the first index beyond it (V-H4). -/
theorem witness_grouped : (params 2).wellFormed = true
    ∧ 9 = 3 + (3 - 1) * 3 * (3 / 3) + 0 ∧ 9 + (3 - 1) * 3 < (params 2).nch
    ∧ 10 = 4 + (3 - 1) * 3 * (4 / 3) + 0 ∧ (params 2).nch ≤ 10 + (3 - 1) * 3 := by decide
/-- HostSoftwareReachesTheBufferOnly: beginning, the second half of SETALLHSV, and the two kinds of word. -/
theorem witness_host_software : (at1 (waiting 3) []).params.wellFormed = true
    ∧ (nextOf (performOp (.setAllRgb 255 0 128) (at1 (waiting 3) []))).isSome = true
    ∧ (nextOf (replicateKept { at1 (waiting 3) [] with host := ⟨some 1, 255, [], false, [254, 0, 0]⟩ })).isSome = true
    ∧ (hostMove { at1 (waiting 3) [] with host := ⟨some 1, 255, [.send 0x03000705], false, []⟩ }).1
        = .word (.cmd 0x03000705)
    ∧ (hostMove { at1 (waiting 3) [] with host := ⟨some 1, 255, [.readBack 2], false, []⟩ }).1
        = .word (.cmd 0x05000200) := by decide
/-- HsvComponentsLieInRange: the last hue of the circle, and the first beyond it. -/
theorem witness_hue : 359 < 360 ∧ 360 ≤ 360 := by decide

end Sys2Proof.Tests.Slice0
end

/-! PROOFS. The state's family: what every step keeps (the invariant), who changes the status bits, the reset values. -/

namespace Sys2Proof.Machine

/-! ### The parts of a step, each said once -/

/-- The phase that selects a micro-operation (R99); the other operations come from a port. -/
def microPhase : Instr → Option Phase
  | .pLatchlo => some .latchLow
  | .pData => some .data
  | .pClklo => some .clkLow
  | .pClkhi => some .clkHigh
  | .pLatchhi => some .latchHigh
  | .pFinish => some .finish
  | _ => none

/-- A phase's code decodes to an operation of that phase. -/
theorem microPhase_of_decode_code {ph : Phase} {i : Instr} (h : decode (.phase ph.code) = .ok i) :
    microPhase i = some ph := by
  cases ph <;> cases h <;> rfl

/-- A host command is no micro-operation and no pin event. -/
theorem decode_cmd_not_engine {w : Word} {i : Instr} (h : decode (.cmd w) = .ok i) :
    microPhase i = none ∧ i ≠ .tick := by
  rcases decodeCmd_cases h with ⟨_, _, rfl⟩ | rfl | ⟨_, _, rfl⟩ | ⟨_, rfl⟩ | ⟨_, rfl⟩ <;> simp [microPhase]

/-- A micro-operation is performed in its own phase only (R172). -/
theorem select_microPhase {s : State} {pw : PortWord} {i : Instr} (hs : (select s).1 = .word pw)
    (hd : decode pw = .ok i) {ph : Phase} (hi : microPhase i = some ph) : s.regs.phase = ph := by
  rcases select_word hs with ⟨w, rfl, _⟩ | rfl | rfl | ⟨_, rfl⟩
  · simp [(decode_cmd_not_engine hd).1] at hi
  · cases hd; cases hi
  · cases hd; cases hi
  · simpa [microPhase_of_decode_code hd] using hi

/-- TICK is performed for an assertion of its pin only (R94, R96). -/
theorem select_tick {s : State} {pw : PortWord} (hs : (select s).1 = .word pw) (hd : decode pw = .ok .tick) :
    pw = .tick 1 := by
  rcases select_word hs with ⟨w, rfl, _⟩ | rfl | rfl | ⟨_, rfl⟩
  · exact absurd rfl (decode_cmd_not_engine hd).2
  · rfl
  · cases hd
  · cases microPhase_of_decode_code hd

/-- What the host software notes leaves the block alone. -/
theorem hostNotes_block (i : Instr) (s : State) :
    (s.hostNotes i).params = s.params ∧ (s.hostNotes i).regs = s.regs ∧ (s.hostNotes i).buf = s.buf
      ∧ (s.hostNotes i).setall = s.setall ∧ (s.hostNotes i).chain = s.chain := by
  obtain ⟨h, e⟩ := hostNotes_eq i s
  rw [e]
  exact ⟨rfl, rfl, rfl, rfl, rfl⟩

/-- Performing a move leaves the parameters and the chain as they are. -/
theorem perform_surroundings {m : Move} {s t : State} (h : perform m s = .next t) :
    t.params = s.params ∧ t.chain = s.chain := by
  rcases perform_next h with ⟨_, i, u, _, _, he, rfl⟩ | ⟨_, _, rfl⟩ | rfl | rfl | ⟨_, rfl⟩
  · obtain ⟨hp, hc, _, _⟩ := exec_surroundings he
    obtain ⟨hp', _, _, _, hc'⟩ := hostNotes_block i u
    exact ⟨hp'.trans hp, hc'.trans hc⟩
  all_goals exact ⟨rfl, rfl⟩

/-- No step changes the parameters (log 3). -/
theorem step_params {s t : State} (h : step s = .next t) : t.params = s.params := by
  obtain ⟨u, hu, rfl⟩ := step_next h
  rw [chainReact_params, (perform_surroundings hu).1, (select_frame s).params]

/-- What a step does to the block: the operation of the selected word, the next iteration of the SETALL under way, or
nothing. -/
theorem step_block {s t : State} (h : step s = .next t) :
    (∃ pw i u, (select s).1 = .word pw ∧ decode pw = .ok i ∧ exec i (select s).2 = .next u
        ∧ t.regs = u.regs ∧ t.buf = u.buf ∧ t.setall = u.setall)
    ∨ (∃ r, s.setall = some r ∧ t.regs = s.regs ∧ t.buf = s.buf.write r.next r.value
        ∧ t.setall = setallAfter s.params r.next r.value)
    ∨ (t.regs = s.regs ∧ t.buf = s.buf ∧ t.setall = s.setall) := by
  obtain ⟨v, hv, rfl⟩ := step_next h
  have frame := select_frame s
  simp only [chainReact_regs, chainReact_buf, chainReact_setall]
  rcases perform_next hv with ⟨pw, i, u, hm, hd, he, rfl⟩ | ⟨r, hm, rfl⟩ | hv
  · obtain ⟨_, hr, hb, hs, _⟩ := hostNotes_block i u
    exact .inl ⟨pw, i, u, hm, hd, he, hr, hb, hs⟩
  · refine .inr (.inl ⟨r, ?_, ?_⟩)
    · rcases select_host s with ⟨h | ⟨r', h, hr⟩ | ⟨_, h, _⟩ | ⟨_, h⟩, _⟩ | ⟨_, _, h, _⟩ | ⟨_, _, h, _⟩ | ⟨_, _, h, _⟩
        | ⟨_, h, _⟩ <;> cases hm.symm.trans h
      exact hr
    · simp [setallWrite, frame.regs, frame.buf, frame.params]
  · refine .inr (.inr ?_)
    rcases hv with rfl | rfl | ⟨_, rfl⟩ <;> exact ⟨frame.regs, frame.buf, frame.setall⟩

/-- Registers that a step changes were changed by the operation of the selected word. -/
theorem step_regs {s t : State} (h : step s = .next t) (hne : t.regs ≠ s.regs) :
    ∃ pw i u, select s = (.word pw, (select s).2) ∧ decode pw = .ok i ∧ exec i (select s).2 = .next u
      ∧ t.regs = u.regs := by
  rcases step_block h with ⟨pw, i, u, hm, hd, he, hr, _⟩ | ⟨_, _, hr, _⟩ | ⟨hr, _⟩
  · exact ⟨pw, i, u, Prod.ext hm rfl, hd, he, hr⟩
  · exact absurd hr hne
  · exact absurd hr hne

/-! ### The status bits: who changes `enable`, `oe` and `busy` -/

/-- TICK leaves `enable` and `oe` alone (R170). -/
theorem tickRegs_status (p : Params) (r : Regs) :
    (tickRegs p r).enable = r.enable ∧ (tickRegs p r).oe = r.oe := by
  unfold tickRegs
  repeat' split
  all_goals exact ⟨rfl, rfl⟩

/-- TICK leaves the guard, or begins a pass: with the block enabled and the guard free (R170 d). -/
theorem tickRegs_busy (p : Params) (r : Regs) :
    (tickRegs p r).busy = r.busy ∨ (r.enable = true ∧ r.busy = false ∧ tickRegs p r = beginPass p r) := by
  unfold tickRegs
  split
  · exact .inl rfl
  · rename_i he
    split
    · exact .inl rfl
    · rename_i hb
      split
      · exact .inr ⟨by simpa using he, by simpa using hb, rfl⟩
      · exact .inl rfl

/-- P_CLKHI leaves the three status bits alone (R177). -/
theorem clkhiRegs_status (p : Params) (r : Regs) :
    (clkhiRegs p r).enable = r.enable ∧ (clkhiRegs p r).oe = r.oe ∧ (clkhiRegs p r).busy = r.busy := by
  unfold clkhiRegs
  split <;> exact ⟨rfl, rfl, rfl⟩

/-- What an operation does to `enable`, `oe` and `busy`: START, STOP, RESET, a TICK that begins a pass and P_FINISH write
some of the three, every other operation leaves all three (R26, R28, R30). -/
theorem exec_status {i : Instr} {s t : State} (h : exec i s = .next t) :
    ((∃ freq maxb, i = .start freq maxb)
        ∧ t.regs.enable = true ∧ t.regs.oe = true ∧ t.regs.busy = s.regs.busy)
    ∨ (i = .stop ∧ t.regs.enable = false ∧ t.regs.oe = s.regs.oe ∧ t.regs.busy = s.regs.busy)
    ∨ (i = .reset ∧ t.regs = Regs.reset)
    ∨ (i = .tick ∧ s.regs.enable = true ∧ s.regs.busy = false ∧ t.regs = beginPass s.params s.regs)
    ∨ (i = .pFinish ∧ t.regs.enable = s.regs.enable ∧ t.regs.oe = s.regs.oe ∧ t.regs.busy = false)
    ∨ (t.regs.enable = s.regs.enable ∧ t.regs.oe = s.regs.oe ∧ t.regs.busy = s.regs.busy) := by
  cases i with
  | start freq maxb =>
    obtain ⟨hb, rfl⟩ := execStart_next h
    exact .inl ⟨⟨freq, maxb, rfl⟩, rfl, rfl, hb.symm⟩
  | stop => cases h; simp
  | setone index value => rcases execSetone_next h with ⟨_, rfl⟩ | ⟨_, rfl⟩ <;> simp
  | tick =>
    cases h
    rcases tickRegs_busy s.params s.regs with hb | ⟨he, hb, hr⟩
    · simp [tickRegs_status, hb]
    · exact .inr (.inr (.inr (.inl ⟨rfl, he, hb, hr⟩)))
  | reset => cases h; simp
  | pData => obtain ⟨_, rfl⟩ := execPData_next h; simp
  | pClkhi => cases h; simp [clkhiRegs_status]
  | pFinish => cases h; simp [endPass]
  | _ => cases h; simp [setallWrite]

/-- Settles O40: only the operation of the selected word changes a status bit, and `exec_status` says which ones do. -/
theorem statusBitsChangeOnlyAsListed : Obligations.StatusBitsChangeOnlyAsListed := by
  intro s t h
  by_cases hne : t.regs = s.regs
  · rw [hne]
    simp +contextual
  obtain ⟨pw, i, u, hs, hd, he, hr⟩ := step_regs h hne
  have status := exec_status he
  rw [← hr, (select_frame s).regs] at status
  rcases status with ⟨⟨freq, maxb, rfl⟩, hen, hoe, hbusy⟩ | ⟨rfl, hen, hoe, hbusy⟩ | ⟨rfl, hregs⟩ | ⟨_, _, hbusy, hregs⟩
    | ⟨rfl, hen, hoe, _⟩ | ⟨hen, hoe, hbusy⟩
  · have start : ∃ pw u freq maxb, select s = (.word pw, u) ∧ decode pw = .ok (.start freq maxb) :=
      ⟨pw, _, freq, maxb, hs, hd⟩
    refine ⟨fun _ _ => start, ?_, fun _ _ => start, ?_, ?_⟩ <;> simp +contextual [hen, hoe, hbusy]
  · refine ⟨?_, fun _ _ => ⟨pw, _, hs, .inl hd⟩, ?_, ?_, ?_⟩ <;> simp +contextual [hen, hoe, hbusy]
  · refine ⟨?_, fun _ _ => ⟨pw, _, hs, .inr hd⟩, ?_, fun _ _ => ⟨pw, _, hs, hd⟩, fun _ _ => ⟨pw, _, hs, .inr hd⟩⟩ <;>
      simp [hregs, Regs.reset]
  · simp +contextual [hregs, hbusy, beginPass]
  · refine ⟨?_, ?_, ?_, ?_, fun _ _ => ⟨pw, _, hs, .inl hd⟩⟩ <;> simp +contextual [hen, hoe]
  · simp +contextual [hen, hoe, hbusy]

/-- Settles O26: of the operations that can change the guard only TICK sets it, by beginning a pass. -/
theorem onlyAnAcceptedTickBeginsAPass : Obligations.OnlyAnAcceptedTickBeginsAPass := by
  intro s t h hs0 ht1
  have frame := select_frame s
  obtain ⟨pw, i, u, hs, hd, he, hr⟩ := step_regs h (fun e => by simp [e, hs0] at ht1)
  rw [hr] at ht1 ⊢
  rw [← frame.regs] at hs0 ⊢
  rcases exec_status he with ⟨_, _, _, hb⟩ | ⟨_, _, _, hb⟩ | ⟨_, hb⟩ | ⟨rfl, hen, _, hb⟩ | ⟨_, _, _, hb⟩ | ⟨_, _, hb⟩
  case inr.inr.inr.inl =>
    obtain rfl := select_tick (congrArg Prod.fst hs) hd
    rw [hb]
    exact ⟨⟨_, hs⟩, hen, rfl, rfl⟩
  all_goals simp [hb, hs0, Regs.reset] at ht1

/-! ### The comparison value along a pass (R177, R184) -/

theorem nRegs_range {p : Params} (h : p.wellFormed = true) : 1 ≤ p.nRegs ∧ p.nRegs ≤ 8192 := by
  simp only [Params.wellFormed, Params.nRegsLegal, Bool.and_eq_true, decide_eq_true_eq] at h
  exact h.1

theorem nch_pos {p : Params} (h : p.wellFormed = true) : 0 < p.nch := by
  have := nRegs_range h
  unfold Params.nch
  omega

/-- A pass begins at the last channel: the index register holds `NCH - 1` (R8, R170). -/
theorem lastIndex_toNat {p : Params} (h : p.wellFormed = true) : (BitVec.ofNat 16 (p.nch - 1)).toNat = p.nch - 1 := by
  have := nRegs_range h
  rw [BitVec.toNat_ofNat]
  unfold Params.nch
  omega

/-- A counter within `maxb` lies below either modulus of the offset (R177), so it is its own remainder. -/
theorem counter_lt_lbMod {p : Params} {maxb c : BitVec 8} (h : c.toNat ≤ maxb.toNat) : c.toNat < lbMod p maxb := by
  have := c.isLt
  unfold lbMod
  split <;> omega

/-- The last register, which is shifted first, is compared against the counter itself (R184). -/
theorem passCmp_lastRegister {p : Params} {maxb c : BitVec 8} (h : c.toNat ≤ maxb.toNat) :
    passCmp p maxb c ((p.nch - 1) / 8) = c := by
  cases hl : p.loadBalance
  · exact passCmp_of_not hl ..
  · apply BitVec.eq_of_toNat_eq
    have last : p.nRegs - 1 - (p.nch - 1) / 8 = 0 := by unfold Params.nch; omega
    rw [passCmp_toNat hl, last]
    exact Nat.mod_eq_of_lt (counter_lt_lbMod h)

/-- The offset added after register `k + 1` gives the comparison value of register `k` (R177, R184). -/
theorem addOffset_passCmp {p : Params} (hl : p.loadBalance = true) (maxb c : BitVec 8) {k : Nat} (hk : k + 1 < p.nRegs) :
    addOffset p maxb (passCmp p maxb c (k + 1)) = passCmp p maxb c k := by
  apply BitVec.eq_of_toNat_eq
  rw [addOffset_toNat, passCmp_toNat hl, passCmp_toNat hl, Nat.mod_add_mod]
  congr 1
  omega

/-- P_CLKHI takes the comparison value of a channel to that of the next one (R177, R184). -/
theorem cmpAfterShift_passCmp {p : Params} {r : Regs} (hi : r.idx.toNat < p.nch) (h0 : r.idx ≠ 0)
    (h : r.cmp = passCmp p r.maxb r.counter (r.idx.toNat / 8)) :
    cmpAfterShift p r = passCmp p r.maxb r.counter ((r.idx - 1).toNat / 8) := by
  have pos : 0 < r.idx.toNat := Nat.pos_of_ne_zero fun e => h0 (BitVec.eq_of_toNat_eq e)
  have pred : (r.idx - 1).toNat = r.idx.toNat - 1 := by bv_omega
  rw [pred, cmpAfterShift, h]
  cases hl : p.loadBalance
  · simp [passCmp_of_not hl]
  · by_cases hb : r.idx.toNat % 8 = 0
    · have here : r.idx.toNat / 8 = (r.idx.toNat - 1) / 8 + 1 := by omega
      simp only [registerBoundary, hb, decide_true, Bool.and_true, if_true, here]
      refine addOffset_passCmp hl _ _ ?_
      unfold Params.nch at hi
      omega
    · have here : (r.idx.toNat - 1) / 8 = r.idx.toNat / 8 := by omega
      simp [registerBoundary, hb, here]

/-- With the default modulus the offset keeps `cmp <= maxb` (R32 e, R177). -/
theorem cmpAfterShift_le {p : Params} {r : Regs} (hm : p.lbMod256 = false) (h : r.cmp.toNat ≤ r.maxb.toNat) :
    (cmpAfterShift p r).toNat ≤ r.maxb.toNat := by
  unfold cmpAfterShift
  split
  · have := Nat.mod_lt (r.cmp.toNat + 8) (lbMod_pos p r.maxb)
    rw [addOffset_toNat]
    simp only [lbMod, hm, Bool.false_eq_true, if_false] at this ⊢
    omega
  · exact h

/-! ### Every operation keeps the registers' invariants -/

/-- A countdown that has not run out does not wrap (R170). -/
theorem countDown_toNat {pcount : BitVec 17} (h : 1 ≤ pcount.toNat) : (countDown pcount).toNat = pcount.toNat - 1 := by
  unfold countDown
  bv_omega

section RegsInv
variable {p : Params} {r : Regs}

/-- A pass is in progress in every phase but IDLE (R27). -/
theorem RegsInv.busy_of_phase (h : RegsInv p r) {ph : Phase} (hph : r.phase = ph) (hne : ph ≠ .idle) : r.busy = true :=
  h.guard.mpr (hph ▸ hne)

/-- Between passes only the counter, the countdown, the index and the driven lines are constrained. -/
theorem RegsInv.of_idle (hphase : r.phase = .idle) (hbusy : r.busy = false) (hcounter : r.counter.toNat ≤ r.maxb.toNat)
    (hpresc : r.enable = true → 1 ≤ r.presc.toNat ∧ r.presc.toNat ≤ 65536)
    (hpcount : r.enable = true → 1 ≤ r.pcount.toNat ∧ r.pcount.toNat ≤ r.presc.toNat)
    (hidx : r.idx.toNat < p.nch) (hoe : r.enable = true → r.oe = true) : RegsInv p r where
  guard := by simp [hphase, hbusy]
  counter_le := hcounter
  presc_range := hpresc
  pcount_range := hpcount
  cmp_le := by simp [hbusy]
  idx_lt := hidx
  enable_driven := hoe
  pass_driven := by simp [hbusy]
  pass_start := by simp [hphase]
  pass_cmp := by simp [hphase, Phase.shifting]
  pass_last := by simp [hphase]
  latch_low := by simp [hphase, Phase.shifting]
  latch_high := by simp [hphase]
  clock_low := by simp [hphase]
  clock_high := by simp [hphase]

theorem RegsInv.reset (hp : p.wellFormed = true) : RegsInv p Regs.reset :=
  .of_idle rfl rfl (Nat.le_refl _) nofun nofun (nch_pos hp) nofun

theorem RegsInv.start (h : RegsInv p r) (freq : BitVec 16) (maxb : Byte) : RegsInv p (startRegs p freq maxb r) := by
  have presc : 1 ≤ (prescalerOf p freq).toNat ∧ (prescalerOf p freq).toNat ≤ 65536 := by
    have := Nat.div_le_self freq.toNat p.baseRate
    have := freq.isLt
    rw [prescalerOf_toNat]
    exact ⟨Nat.le_add_left 1 _, by omega⟩
  exact .of_idle rfl rfl (Nat.zero_le _) (fun _ => presc) (fun _ => ⟨presc.1, Nat.le_refl _⟩) h.idx_lt fun _ => rfl

theorem RegsInv.stop (h : RegsInv p r) : RegsInv p { r with enable := false } :=
  { h with presc_range := nofun, pcount_range := nofun, enable_driven := nofun }

theorem RegsInv.beginPass (h : RegsInv p r) (hp : p.wellFormed = true) (he : r.enable = true) :
    RegsInv p (beginPass p r) where
  guard := by simp [Machine.beginPass]
  counter_le := h.counter_le
  presc_range := h.presc_range
  pcount_range _ := ⟨(h.presc_range he).1, Nat.le_refl _⟩
  cmp_le _ _ := h.counter_le
  idx_lt := by
    have := nch_pos hp
    have := lastIndex_toNat hp
    simp only [Machine.beginPass]
    omega
  enable_driven := h.enable_driven
  pass_driven _ := h.enable_driven he
  pass_start _ := ⟨lastIndex_toNat hp, rfl⟩
  pass_cmp := nofun
  pass_last := by simp [Machine.beginPass]
  latch_low := by simp [Machine.beginPass, Phase.shifting]
  latch_high := nofun
  clock_low := nofun
  clock_high := by simp [Machine.beginPass]

theorem RegsInv.countDown (h : RegsInv p r) (h0 : countDown r.pcount ≠ 0#17) :
    RegsInv p { r with pcount := countDown r.pcount } where
  __ := h
  pcount_range he := by
    obtain ⟨hpos, hle⟩ := h.pcount_range he
    have pred := countDown_toNat hpos
    have : (Machine.countDown r.pcount).toNat ≠ 0 := fun e => h0 (BitVec.eq_of_toNat_eq e)
    exact ⟨Nat.pos_of_ne_zero this, pred.le.trans ((Nat.sub_le _ 1).trans hle)⟩

theorem RegsInv.tick (h : RegsInv p r) (hp : p.wellFormed = true) : RegsInv p (tickRegs p r) := by
  unfold tickRegs
  split
  · exact h
  · rename_i he
    split
    · exact h
    · split
      · exact h.beginPass hp (by simpa using he)
      · rename_i h0
        exact h.countDown h0

theorem RegsInv.latchLow (h : RegsInv p r) (hph : r.phase = .latchLow) :
    RegsInv p { r with latch := false, phase := .data } where
  __ := h
  guard := by simp [h.busy_of_phase hph nofun]
  pass_start := nofun
  pass_cmp _ := by
    obtain ⟨hi, hc⟩ := h.pass_start hph
    simp only [hi, hc, passCmp_lastRegister h.counter_le]
  pass_last := by simp
  latch_low _ := rfl
  latch_high := nofun
  clock_low := nofun
  clock_high := by simp

theorem RegsInv.dataStep (h : RegsInv p r) (hph : r.phase = .data) (bit : Bool) :
    RegsInv p { r with data := bit, phase := .clkLow } where
  __ := h
  guard := by simp [h.busy_of_phase hph nofun]
  pass_start := nofun
  pass_cmp _ := h.pass_cmp (by simp [hph, Phase.shifting])
  pass_last := by simp
  latch_low _ := h.latch_low (by simp [hph, Phase.shifting])
  latch_high := nofun
  clock_low := nofun
  clock_high := by simp

theorem RegsInv.clockLow (h : RegsInv p r) (hph : r.phase = .clkLow) :
    RegsInv p { r with clock := false, phase := .clkHigh } where
  __ := h
  guard := by simp [h.busy_of_phase hph nofun]
  pass_start := nofun
  pass_cmp _ := h.pass_cmp (by simp [hph, Phase.shifting])
  pass_last := by simp
  latch_low _ := h.latch_low (by simp [hph, Phase.shifting])
  latch_high := nofun
  clock_low _ := rfl
  clock_high := by simp

theorem RegsInv.clockHigh (h : RegsInv p r) (hph : r.phase = .clkHigh) : RegsInv p (clkhiRegs p r) := by
  have busy := h.busy_of_phase hph nofun
  have shifting : r.phase.shifting = true := by simp [hph, Phase.shifting]
  have latch := h.latch_low (.inl shifting)
  unfold clkhiRegs
  split
  case isTrue h0 =>
    exact { h with
      guard := by simp [busy]
      cmp_le := fun _ hm => cmpAfterShift_le hm (h.cmp_le busy hm)
      pass_start := nofun
      pass_cmp := nofun
      pass_last := fun _ => h0
      latch_low := fun _ => latch
      latch_high := nofun
      clock_low := nofun
      clock_high := fun _ => rfl }
  case isFalse h0 =>
    exact { h with
      guard := by simp [busy]
      cmp_le := fun _ hm => cmpAfterShift_le hm (h.cmp_le busy hm)
      idx_lt := by have := h.idx_lt; bv_omega
      pass_start := nofun
      pass_cmp := fun _ => cmpAfterShift_passCmp h.idx_lt h0 (h.pass_cmp shifting)
      pass_last := by simp
      latch_low := fun _ => latch
      latch_high := nofun
      clock_low := nofun
      clock_high := by simp }

theorem RegsInv.latchHigh (h : RegsInv p r) (hph : r.phase = .latchHigh) :
    RegsInv p { r with latch := true, phase := .finish } where
  __ := h
  guard := by simp [h.busy_of_phase hph nofun]
  pass_start := nofun
  pass_cmp := nofun
  pass_last _ := h.pass_last (.inl hph)
  latch_low := by simp [Phase.shifting]
  latch_high _ := rfl
  clock_low := nofun
  clock_high _ := h.clock_high (.inl hph)

theorem RegsInv.finish (h : RegsInv p r) :
    RegsInv p (endPass { r with counter := advanceCounter r.maxb r.counter }) := by
  refine .of_idle rfl rfl ?_ h.presc_range h.pcount_range h.idx_lt h.enable_driven
  simp only [endPass, advanceCounter_toNat]
  split <;> omega

end RegsInv

/-- Every operation keeps the registers' invariants, a micro-operation when it is performed in its own phase. -/
theorem exec_regsInv {i : Instr} {s t : State} (h : exec i s = .next t) (hp : s.params.wellFormed = true)
    (hr : RegsInv s.params s.regs) (hph : ∀ ph, microPhase i = some ph → s.regs.phase = ph) :
    RegsInv s.params t.regs := by
  cases i with
  | start freq maxb => obtain ⟨_, rfl⟩ := execStart_next h; exact hr.start freq maxb
  | stop => cases h; exact hr.stop
  | setone index value => rcases execSetone_next h with ⟨_, rfl⟩ | ⟨_, rfl⟩ <;> exact hr
  | setall value => cases h; exact hr
  | getone index => cases h; exact hr
  | tick => cases h; exact hr.tick hp
  | reset => cases h; exact .reset hp
  | pLatchlo => cases h; exact hr.latchLow (hph _ rfl)
  | pData => obtain ⟨_, rfl⟩ := execPData_next h; exact hr.dataStep (hph _ rfl) _
  | pClklo => cases h; exact hr.clockLow (hph _ rfl)
  | pClkhi => cases h; exact hr.clockHigh (hph _ rfl)
  | pLatchhi => cases h; exact hr.latchHigh (hph _ rfl)
  | pFinish => cases h; exact hr.finish

/-- Every step keeps the registers' invariants. -/
theorem step_regsInv {s t : State} (h : step s = .next t) (hp : s.params.wellFormed = true)
    (hr : RegsInv s.params s.regs) : RegsInv s.params t.regs := by
  by_cases hne : t.regs = s.regs
  · exact hne ▸ hr
  · obtain ⟨pw, i, u, hs, hd, he, ht⟩ := step_regs h hne
    have frame := select_frame s
    rw [ht, ← frame.params]
    refine exec_regsInv he (frame.params ▸ hp) (by rwa [frame.params, frame.regs]) fun ph hi => ?_
    rw [frame.regs]
    exact select_microPhase (congrArg Prod.fst hs) hd hi

/-! ### Every step keeps the buffer and the SETALL under way in range -/

/-- The invariants of the buffer and of a SETALL under way, with `n` channels (R60, R122). -/
structure StoreInv (n : Nat) (m : Memory) (o : Option SetallRun) : Prop where
  wf : m.wf
  inside : ∀ c ∈ m, c.1 < n
  next : ∀ r, o = some r → 1 ≤ r.next ∧ r.next < n

/-- A write of a slot inside the buffer. -/
theorem StoreInv.write {n a : Nat} {m : Memory} {o : Option SetallRun} (h : StoreInv n m o) (ha : a < n) (v : Byte) :
    StoreInv n (m.write a v) o where
  wf := Memory.wf_write a v h.wf
  inside c hc := by
    rcases Memory.mem_write hc with rfl | hc
    · exact ha
    · exact h.inside c hc
  next := h.next

/-- An iteration of SETALL: its slot is written and the next one, if there is one, is under way (R122). -/
theorem StoreInv.setallWrite {p : Params} {a : Nat} {m : Memory} {o : Option SetallRun} (h : StoreInv p.nch m o)
    (ha : a < p.nch) (v : Byte) : StoreInv p.nch (m.write a v) (setallAfter p a v) where
  wf := (h.write ha v).wf
  inside := (h.write ha v).inside
  next r hr := by
    unfold setallAfter at hr
    split at hr <;> cases hr
    exact ⟨Nat.le_add_left 1 a, ‹_›⟩

/-- What an operation does to the buffer and the SETALL under way: SETONE, SETALL and RESET alone write them. -/
theorem exec_store {i : Instr} {s t : State} (h : exec i s = .next t) :
    (∃ index value, i = .setone index value ∧ index.toNat < s.params.nch
        ∧ t.buf = s.buf.write index.toNat value ∧ t.setall = s.setall)
    ∨ (∃ value, i = .setall value ∧ t.buf = s.buf.write 0 value ∧ t.setall = setallAfter s.params 0 value)
    ∨ (i = .reset ∧ t.buf = s.buf ∧ t.setall = none)
    ∨ (t.buf = s.buf ∧ t.setall = s.setall) := by
  cases i with
  | start freq maxb => obtain ⟨_, rfl⟩ := execStart_next h; simp
  | setone index value => rcases execSetone_next h with ⟨hi, rfl⟩ | ⟨_, rfl⟩ <;> simp [*]
  | setall value => cases h; simp [setallWrite]
  | pData => obtain ⟨_, rfl⟩ := execPData_next h; simp
  | _ => cases h; simp

theorem exec_storeInv {i : Instr} {s t : State} (h : exec i s = .next t) (hn : 0 < s.params.nch)
    (hs : StoreInv s.params.nch s.buf s.setall) : StoreInv s.params.nch t.buf t.setall := by
  rcases exec_store h with ⟨index, value, _, hi, hb, ho⟩ | ⟨value, _, hb, ho⟩ | ⟨_, hb, ho⟩ | ⟨hb, ho⟩ <;> rw [hb, ho]
  · exact hs.write hi value
  · exact hs.setallWrite hn value
  · exact { hs with next := nofun }
  · exact hs

/-- Every step keeps the buffer canonical and inside its `NCH` slots, and a SETALL under way at a slot that is left. -/
theorem step_storeInv {s t : State} (h : step s = .next t) (hn : 0 < s.params.nch)
    (hs : StoreInv s.params.nch s.buf s.setall) : StoreInv s.params.nch t.buf t.setall := by
  rcases step_block h with ⟨pw, i, u, _, _, he, _, hb, ho⟩ | ⟨r, hr, _, hb, ho⟩ | ⟨_, hb, ho⟩ <;> rw [hb, ho]
  · have frame := select_frame s
    have := exec_storeInv he (frame.params ▸ hn) (by rwa [frame.params, frame.buf, frame.setall])
    rwa [frame.params] at this
  · exact hs.setallWrite (hs.next r hr).2 r.value
  · exact hs

/-! ### Every step keeps the chain's length -/

/-- The chain has `n` stages and `n` outputs (R70). -/
def Chain.Sized (n : Nat) (c : Chain) : Prop := c.sr.length = n ∧ c.out.length = n

theorem Chain.sized_unknown (n d : Nat) : (Chain.unknown n d).Sized n :=
  ⟨Chain.unknown_sr_length n d, Chain.unknown_out_length n d⟩

theorem Chain.Sized.shift {n : Nat} {c : Chain} (h : c.Sized n) (bit : Bool) : (c.shift bit).Sized n :=
  ⟨(Chain.shift_length c bit).trans h.1, h.2⟩

theorem Chain.Sized.present {n : Nat} {c : Chain} (h : c.Sized n) : c.present.Sized n := ⟨h.1, h.1⟩

theorem Chain.Sized.driven {n : Nat} {c : Chain} (h : c.Sized n) (r r' : Regs) : (c.driven r r').Sized n := by
  unfold Chain.driven
  by_cases hc : risingEdge r.clock r'.clock <;> by_cases hl : risingEdge r.latch r'.latch <;> simp only [hc, hl, if_true]
  · exact (h.shift _).present
  · exact h.shift _
  · exact h.present
  · exact h

theorem chainReact_sized {s t : State} (h : t.chain.Sized t.params.nch) : (chainReact s t).chain.Sized t.params.nch := by
  unfold chainReact
  split
  · exact h.driven s.regs t.regs
  · exact Chain.sized_unknown ..

theorem step_chain_sized {s t : State} (h : step s = .next t) (hc : s.chain.Sized s.params.nch) :
    t.chain.Sized s.params.nch := by
  obtain ⟨u, hu, rfl⟩ := step_next h
  obtain ⟨hp, hch⟩ := perform_surroundings hu
  have frame := select_frame s
  rw [frame.params] at hp
  rw [frame.chain] at hch
  rw [← hp] at hc ⊢
  exact chainReact_sized (hch ▸ hc)

/-! ### Every step keeps the host software in a possible position -/

/-- The invariants of the host software (R141, R152). -/
structure HostInv (h : HostSw) : Prop where
  grouping_pos : h.pinGrouping ≠ some 0
  nothing_awaited : h.keepResp = false
  position : actionsOk h.kept.length h.current
  grouping_set : .replicate ∈ h.current → h.pinGrouping ≠ none

theorem HostInv.initial : HostInv HostSw.initial := ⟨nofun, rfl, trivial, nofun⟩

section HostInv
variable {h : HostSw}

/-- A command has been presented. -/
theorem HostInv.send (hh : HostInv h) {w : Word} {rest : List HostAction} (hc : h.current = .send w :: rest) :
    HostInv { h with current := rest } where
  __ := hh
  position := by simpa [hc, actionsOk] using hh.position
  grouping_set hm := hh.grouping_set (hc ▸ List.mem_cons_of_mem _ hm)

/-- A response has been read back and kept. -/
theorem HostInv.readBack (hh : HostInv h) {slot : Nat} {rest : List HostAction} (hc : h.current = .readBack slot :: rest)
    (v : Byte) : HostInv { h with current := rest, keepResp := false, kept := h.kept ++ [v] } where
  grouping_pos := hh.grouping_pos
  nothing_awaited := rfl
  position := by simpa [hc, actionsOk] using hh.position
  grouping_set hm := hh.grouping_set (hc ▸ List.mem_cons_of_mem _ hm)

/-- The second half of SETALLHSV is about to begin: it was the last action. -/
theorem HostInv.replicate (hh : HostInv h) {rest : List HostAction} (hc : h.current = .replicate :: rest) :
    HostInv { h with current := rest } := by
  obtain ⟨_, rfl⟩ : h.kept.length = 3 ∧ rest = [] := by simpa [hc, actionsOk] using hh.position
  exact { hh with position := trivial, grouping_set := nofun }

/-- Actions have been begun at a possible position, with `pinGrouping` set. -/
theorem HostInv.begin (hh : HostInv h) {as : List HostAction} (hg : h.pinGrouping ≠ none) (ha : actionsOk 0 as) :
    HostInv { h with current := as, kept := [] } :=
  ⟨hh.grouping_pos, hh.nothing_awaited, ha, fun _ => hg⟩

end HostInv

/-- With no response awaited, the host software notes at most the maxBrightness of a START. -/
theorem hostNotes_hostInv {s : State} (hh : HostInv s.host) (i : Instr) : HostInv (s.hostNotes i).host := by
  cases i with
  | start freq maxb => exact ⟨hh.grouping_pos, hh.nothing_awaited, hh.position, hh.grouping_set⟩
  | getone index => simpa [State.hostNotes, hh.nothing_awaited] using hh
  | _ => exact hh

theorem runWord_hostInv {pw : PortWord} {s t : State} (h : runWord pw s = .next t) (hh : HostInv s.host) :
    HostInv t.host := by
  rcases runWord_next h with ⟨i, u, _, he, rfl⟩ | ⟨_, rfl | rfl⟩
  · obtain ⟨_, _, hu, _⟩ := exec_surroundings he
    exact hostNotes_hostInv (hu ▸ hh) i
  · exact hh
  · exact hh

/-- A GETONE whose response is awaited: it is kept (R152). -/
theorem runWord_getone_host {index : BitVec 16} {s t : State} (h : runWord (.cmd (cmdWord 0x05 index 0)) s = .next t)
    (hk : s.host.keepResp = true) :
    ∃ v, t.host = { s.host with kept := s.host.kept ++ [v], keepResp := false } := by
  have hd : decode (.cmd (cmdWord 0x05 index 0)) = .ok (.getone index) := by
    simp [decode, decodeCmd, cmdOp_cmdWord, cmdA_cmdWord]
  rw [runWord, hd] at h
  cases h
  refine ⟨if slotInRange s.params index then s.memRead index.toNat else 0x00, ?_⟩
  simp [State.hostNotes, hk]

theorem performOp_hostInv {o : HostOp} {s t : State} (h : performOp o s = .next t) (hh : HostInv s.host)
    (hc : s.host.current = []) : HostInv t.host := by
  rcases performOp_next h with ⟨g, rfl⟩ | ⟨as, hg, ha, rfl⟩
  · exact { hh with grouping_pos := by simp, grouping_set := by simp [hc] }
  · exact hh.begin hg ha

theorem replicateKept_hostInv {s t : State} (h : replicateKept s = .next t) (hh : HostInv s.host) : HostInv t.host := by
  obtain ⟨as, hg, ha, rfl⟩ := replicateKept_next h
  exact hh.begin hg (actionsOk_sends ha)

/-- Every step leaves the host software in a possible position: the action of a pseudo-operation it has taken, or the one
it was in the middle of nothing to begin. -/
theorem step_hostInv {s t : State} (h : step s = .next t) (hh : HostInv s.host) : HostInv t.host := by
  obtain ⟨u, hu, rfl⟩ := step_next h
  rw [chainReact_host]
  rcases select_host s with ⟨hm, hv⟩ | ⟨w, rest, hm, hc, hv⟩ | ⟨slot, rest, hm, hc, hv⟩ | ⟨slot, rest, hm, hc, hv⟩
    | ⟨rest, hm, hc, hv⟩
  · rw [← hv] at hh
    rcases hm with hm | ⟨r, hm, _⟩ | ⟨o, hm, hc⟩ | ⟨pw, hm⟩ <;> rw [hm] at hu
    · cases hu; exact hh
    · cases hu; exact hh
    · exact performOp_hostInv hu hh (hv ▸ hc)
    · exact runWord_hostInv hu hh
  · rw [hm] at hu
    exact runWord_hostInv hu (hv ▸ hh.send hc)
  · rw [hm] at hu
    obtain ⟨v, hu⟩ := runWord_getone_host hu (by rw [hv])
    rw [hu, hv]
    exact hh.readBack hc v
  · rw [hm] at hu
    cases hu
    have := hh.readBack hc 0
    simpa [State.keepZero, hv, hh.nothing_awaited] using this
  · rw [hm] at hu
    exact replicateKept_hostInv hu (hv ▸ hh.replicate hc)

/-! ### The machine's invariant -/

/-- The invariant of the machine is its five parts. -/
theorem inv_iff (s : State) : s.Inv ↔ s.params.wellFormed = true ∧ RegsInv s.params s.regs
    ∧ StoreInv s.params.nch s.buf s.setall ∧ s.chain.Sized s.params.nch ∧ HostInv s.host := by
  constructor
  · intro h
    exact ⟨h.params, h.regs, ⟨h.buf_wf, h.buf_in, h.setall_next⟩, h.chain_length,
      ⟨h.grouping_pos, h.host_ok.1, h.host_ok.2, h.grouping_set⟩⟩
  · rintro ⟨hp, hr, hs, hc, hh⟩
    exact ⟨hp, hr, hs.wf, hs.inside, hs.next, hc, hh.grouping_pos, ⟨hh.nothing_awaited, hh.position⟩, hh.grouping_set⟩

/-- Settles O43: a step keeps each part of the invariant. -/
theorem stepKeepsTheInvariant : Obligations.StepKeepsTheInvariant := by
  intro s t hi h
  obtain ⟨hp, hr, hs, hc, hh⟩ := (inv_iff s).mp hi
  rw [inv_iff, step_params h]
  exact ⟨hp, step_regsInv h hp hr, step_storeInv h (nch_pos hp) hs, step_chain_sized h hc, step_hostInv h hh⟩

/-! ### The reset state, and what the host can read -/

/-- Settles O42: each part of the invariant holds of the reset state. -/
theorem resetMeetsTheInvariant : Obligations.ResetMeetsTheInvariant :=
  (inv_iff State.reset).mpr
    ⟨rfl, .reset rfl, ⟨Memory.wf_nil, nofun, nofun⟩, Chain.sized_unknown 8 0, HostInv.initial⟩

/-- Settles O6: the registers and the empty buffer of `State.reset`, as they stand. -/
theorem resetStateValues : Obligations.ResetStateValues :=
  ⟨rfl, rfl, rfl, rfl, rfl, rfl, rfl, rfl, rfl, rfl, rfl, rfl, rfl, fun _ => rfl, rfl⟩

/-- GETONE completes in every state; its response is the slot's value, or 0 when the index is out of range (R124). -/
theorem exec_getone (index : BitVec 16) (s : State) : exec (.getone index) s
    = .next (s.setResp (if slotInRange s.params index then s.memRead index.toNat else 0x00)) := rfl

/-- Settles O15: GETONE's response names the parameters and the buffer only. -/
theorem responsesRevealTheBufferAlone : Obligations.ResponsesRevealTheBufferAlone := by
  intro s s' index hp hb
  refine ⟨_, _, exec_getone index s, exec_getone index s', ?_⟩
  simp only [State.setResp_resp, hp, State.memRead_congr hb]

end Sys2Proof.Machine

/-! PROOFS. The memory's family: which step writes a slot, the shift and the latch of the attached chain, the comparison bit. -/

namespace Sys2Proof.Machine

/-! ### Which step writes a slot -/

/-- Where an iteration of a SETALL comes from: the SETALL under way (R95, R122). -/
theorem select_setallNext {s : State} {r : SetallRun} (h : (select s).1 = .setallNext r) : s.setall = some r := by
  rcases select_host s with ⟨hm | ⟨r', hm, hr⟩ | ⟨_, hm, _⟩ | ⟨_, hm⟩, _⟩ | ⟨_, _, hm, _⟩ | ⟨_, _, hm, _⟩ | ⟨_, _, hm, _⟩
    | ⟨_, hm, _⟩ <;> cases h.symm.trans hm
  exact hr

/-- What performing a move writes into the buffer: the slot of a SETONE inside it, slot 0 by the acceptance of a SETALL,
the slot of an iteration of SETALL, or nothing (R61, R67). -/
theorem perform_buf {m : Move} {s t : State} (h : perform m s = .next t) :
    (∃ pw index value, m = .word pw ∧ decode pw = .ok (.setone index value) ∧ index.toNat < s.params.nch
        ∧ t.buf = s.buf.write index.toNat value)
    ∨ (∃ pw value, m = .word pw ∧ decode pw = .ok (.setall value) ∧ t.buf = s.buf.write 0 value)
    ∨ (∃ r, m = .setallNext r ∧ t.buf = s.buf.write r.next r.value)
    ∨ t.buf = s.buf := by
  rcases perform_next h with ⟨pw, i, u, hm, hd, he, rfl⟩ | ⟨r, hm, rfl⟩ | rfl | rfl | ⟨_, rfl⟩
  · obtain ⟨_, _, notes, _, _⟩ := hostNotes_block i u
    rw [notes]
    rcases exec_store he with ⟨index, value, rfl, hi, hb, _⟩ | ⟨value, rfl, hb, _⟩ | ⟨_, hb, _⟩ | ⟨hb, _⟩
    · exact .inl ⟨pw, index, value, hm, hd, hi, hb⟩
    · exact .inr (.inl ⟨pw, value, hm, hd, hb⟩)
    · exact .inr (.inr (.inr hb))
    · exact .inr (.inr (.inr hb))
  · exact .inr (.inr (.inl ⟨r, hm, rfl⟩))
  all_goals exact .inr (.inr (.inr rfl))

/-- A slot that reads differently after one write is the slot written, and holds the value written. -/
theorem State.memRead_of_write_ne {s t : State} {i a : Nat} {v : Byte} (hb : t.buf = s.buf.write i v)
    (hne : t.memRead a ≠ s.memRead a) : a = i ∧ t.memRead a = v := by
  have read : t.memRead a = if a = i then v else s.memRead a :=
    (State.memRead_congr (s := s.memWrite i v) hb a).trans (State.memRead_memWrite s i a v)
  by_cases ha : a = i
  · exact ⟨ha, by rw [read, if_pos ha]⟩
  · exact absurd (by rw [read, if_neg ha]) hne

/-- Settles O41: the move of the step is one of the three that write the buffer, and a single write changes its own slot
only. -/
theorem slotsChangeOnlyByBufferWrites : Obligations.SlotsChangeOnlyByBufferWrites := by
  intro s t a h hne
  obtain ⟨u, hu, rfl⟩ := step_next h
  have frame := select_frame s
  rw [chainReact_memRead] at hne ⊢
  rw [← State.memRead_congr frame.buf] at hne
  rcases perform_buf hu with ⟨pw, index, value, hm, hd, hi, hb⟩ | ⟨pw, value, hm, hd, hb⟩ | ⟨r, hm, hb⟩ | hb
  · obtain ⟨rfl, hv⟩ := State.memRead_of_write_ne hb hne
    exact .inl ⟨pw, _, index, value, Prod.ext hm rfl, hd, rfl, frame.params ▸ hi, hv⟩
  · obtain ⟨ha, hv⟩ := State.memRead_of_write_ne hb hne
    exact .inr (.inl ⟨pw, _, value, Prod.ext hm rfl, hd, ha, hv⟩)
  · obtain ⟨ha, hv⟩ := State.memRead_of_write_ne hb hne
    exact .inr (.inr ⟨r, select_setallNext hm, hm, ha.symm, hv⟩)
  · exact absurd (State.memRead_congr hb a) hne

/-! ### The chain: shifting and latching -/

/-- After any number of shifts the stages hold the bits in reverse order of arrival, then what stood there before, cut at
the chain's end (R71). -/
theorem Chain.foldl_shift_sr (c : Chain) (bits : List Bool) :
    (bits.foldl Chain.shift c).sr = (bits.reverse ++ c.sr).take c.sr.length := by
  induction bits generalizing c with
  | nil => simp
  | cons b bits ih =>
    have shifted : (c.shift b).sr = (b :: c.sr).take c.sr.length := rfl
    rw [List.foldl_cons, ih, Chain.shift_length, shifted, List.reverse_cons, List.append_assoc, List.singleton_append,
      List.take_append, List.take_append, List.take_take, Nat.min_eq_left (Nat.sub_le _ _)]

/-- Shifts do not move the outputs (R71). -/
theorem Chain.foldl_shift_out (c : Chain) (bits : List Bool) : (bits.foldl Chain.shift c).out = c.out := by
  induction bits generalizing c with
  | nil => rfl
  | cons b bits ih => exact (ih (c.shift b)).trans (Chain.shift_out c b)

/-- Settles O48: as many shifts as stages push out everything that stood in the chain. -/
theorem chainHoldsTheBitsInWireOrder : Obligations.ChainHoldsTheBitsInWireOrder := by
  intro c bits hlen
  have full : c.sr.length = bits.reverse.length := by rw [List.length_reverse, hlen]
  exact ⟨by rw [Chain.foldl_shift_sr, full, List.take_left], Chain.foldl_shift_out c bits⟩

theorem risingEdge_iff (before after : Bool) : risingEdge before after = true ↔ before = false ∧ after = true := by
  simp [risingEdge]

/-- A line that keeps its level makes no edge. -/
@[simp] theorem risingEdge_self (level : Bool) : risingEdge level level = false := by simp [risingEdge]

/-- Without a rising latch edge the outputs stay (R72). -/
theorem Chain.driven_out_of_no_latch (c : Chain) {r r' : Regs} (hl : risingEdge r.latch r'.latch = false) :
    (c.driven r r').out = c.out := by
  by_cases hc : risingEdge r.clock r'.clock <;> simp [Chain.driven, hl, hc]

/-- A rising latch edge alone presents the stages (R72). -/
theorem Chain.driven_latch_edge (c : Chain) {r r' : Regs} (hc : risingEdge r.clock r'.clock = false)
    (hl : risingEdge r.latch r'.latch = true) : c.driven r r' = c.present := by
  simp [Chain.driven, hc, hl]

/-- With the lines driven before and after a step, the chain follows the edges the step made (R71, R72). -/
theorem step_chain_driven {s t : State} (h : step s = .next t) (hs : s.regs.oe = true) (ht : t.regs.oe = true) :
    t.chain = s.chain.driven s.regs t.regs := by
  obtain ⟨u, hu, rfl⟩ := step_next h
  rw [chainReact_regs] at ht ⊢
  rw [chainReact_driven s u hs ht, State.setChain_chain, (perform_surroundings hu).2, (select_frame s).chain]

/-- TICK leaves the latch line alone (R170). -/
@[simp] theorem tickRegs_latch (p : Params) (r : Regs) : (tickRegs p r).latch = r.latch := by
  unfold tickRegs
  repeat' split
  all_goals rfl

/-- P_CLKHI leaves the latch line alone (R177). -/
@[simp] theorem clkhiRegs_latch (p : Params) (r : Regs) : (clkhiRegs p r).latch = r.latch := by
  unfold clkhiRegs
  split <;> rfl

/-- P_LATCHHI is the one operation that raises the latch line (R178). -/
theorem exec_raises_latch {i : Instr} {s t : State} (h : exec i s = .next t) (hs : s.regs.latch = false)
    (ht : t.regs.latch = true) : i = .pLatchhi := by
  have kept {j : Instr} (e : t.regs.latch = s.regs.latch) : j = .pLatchhi := by simp [e, hs] at ht
  cases i with
  | start freq maxb => obtain ⟨_, rfl⟩ := execStart_next h; exact kept rfl
  | setone index value => rcases execSetone_next h with ⟨_, rfl⟩ | ⟨_, rfl⟩ <;> exact kept rfl
  | tick => cases h; exact kept (tickRegs_latch ..)
  | reset => cases h; cases ht
  | pLatchlo => cases h; cases ht
  | pData => obtain ⟨_, rfl⟩ := execPData_next h; exact kept rfl
  | pClkhi => cases h; exact kept (clkhiRegs_latch ..)
  | pLatchhi => rfl
  | _ => cases h; exact kept rfl

/-- The one word that decodes to a micro-operation is its phase's code (R99). -/
theorem decode_microPhase {pw : PortWord} {i : Instr} (hd : decode pw = .ok i) {ph : Phase}
    (hi : microPhase i = some ph) : pw = .phase ph.code := by
  cases pw with
  | cmd w => simp [(decode_cmd_not_engine hd).1] at hi
  | tick b | reset b =>
    simp only [decode, decodePin] at hd
    split at hd <;> cases hd
    cases hi
  | phase c =>
    simp only [decode, decodePhase] at hd
    repeat' split at hd
    all_goals cases hd
    all_goals cases hi
    all_goals exact congrArg PortWord.phase ‹_›

/-- A rising latch edge is made by P_LATCHHI, which leaves the clock line alone (R178, R186). -/
theorem step_latch_edge {s t : State} (h : step s = .next t) (hs : s.regs.latch = false) (ht : t.regs.latch = true) :
    select s = (.word (.phase 5), (select s).2) ∧ t.regs.clock = s.regs.clock := by
  obtain ⟨pw, i, u, hsel, hd, he, hr⟩ := step_regs h (fun e => by simp [e, hs] at ht)
  rw [← (select_frame s).regs] at hs ⊢
  rw [hr] at ht ⊢
  obtain rfl := exec_raises_latch he hs ht
  obtain rfl := decode_microPhase hd rfl
  cases he
  exact ⟨hsel, rfl⟩

/-- Settles O49: outputs that change need a rising latch edge, so the step is P_LATCHHI's and shifts nothing. -/
theorem outputsChangeOnlyAtTheLatchEdge : Obligations.OutputsChangeOnlyAtTheLatchEdge := by
  intro s t h hs ht hne
  have chain := step_chain_driven h hs ht
  have edge : risingEdge s.regs.latch t.regs.latch = true := by
    by_contra hl
    exact hne (by rw [chain, Chain.driven_out_of_no_latch _ (by simpa using hl)])
  obtain ⟨low, high⟩ := (risingEdge_iff _ _).mp edge
  obtain ⟨hsel, clock⟩ := step_latch_edge h low high
  rw [chain, Chain.driven_latch_edge s.chain (by rw [clock, risingEdge_self]) edge]
  exact ⟨⟨_, hsel⟩, low, high, rfl, rfl⟩

/-! ### The comparison of P_DATA -/

/-- Settles O29: the one branch of P_DATA without an address to read. -/
theorem dataStepOutsideTheBufferFaults : Obligations.DataStepOutsideTheBufferFaults := fun _ h =>
  if_neg (Nat.not_lt.mpr h)

/-- Without INVERT a channel is on while its value exceeds the counter (R69, R174). -/
theorem compareBit_of_not_invert {p : Params} (h : p.invert = false) (v c : Byte) :
    compareBit p v c = decide (v.toNat > c.toNat) := by
  simp [compareBit, h]

/-- With INVERT a channel is on while its value does not exceed the counter (R69, R174). -/
theorem compareBit_of_invert {p : Params} (h : p.invert = true) (v c : Byte) :
    compareBit p v c = decide (v.toNat ≤ c.toNat) := by
  simp [compareBit, h]

/-- Settles O35: the two comparisons are each other's negation. -/
theorem polarityFollowsTheInvertFlag : Obligations.PolarityFollowsTheInvertFlag := by
  intro p q v c hp hq
  rw [compareBit_of_not_invert hp, compareBit_of_invert hq]
  exact ⟨rfl, rfl, by simp only [← decide_not, gt_iff_lt, Nat.not_lt]⟩

end Sys2Proof.Machine

/-! PROOFS. The encoding's family: decoder and encoder against each other and against the opcode table, the turns that
present a word, reserved words, a SETALL under way. -/

namespace Sys2Proof.Machine

/-! ### Command words by their fields (R91, R93) -/

/-- A word is assembled from three values exactly when they are its fields (R91). -/
theorem cmdWord_eq_iff (op : BitVec 8) (a : BitVec 16) (d : BitVec 8) (w : Word) :
    cmdWord op a d = w ↔ op = cmdOp w ∧ a = cmdA w ∧ d = cmdD w := by
  constructor
  · rintro rfl
    exact ⟨(cmdOp_cmdWord ..).symm, (cmdA_cmdWord ..).symm, (cmdD_cmdWord ..).symm⟩
  · rintro ⟨rfl, rfl, rfl⟩
    exact cmdWord_fields w

/-- Assembled words are equal in their fields alone. -/
theorem cmdWord_inj {op op' : BitVec 8} {a a' : BitVec 16} {d d' : BitVec 8} (h : cmdWord op a d = cmdWord op' a' d') :
    op = op' ∧ a = a' ∧ d = d' := by
  simpa only [cmdOp_cmdWord, cmdA_cmdWord, cmdD_cmdWord] using (cmdWord_eq_iff op a d _).mp h

/-- What an assembled word decodes to is read off its three fields (R93, R98). -/
theorem decode_cmdWord (op : BitVec 8) (a : BitVec 16) (d : BitVec 8) :
    decode (.cmd (cmdWord op a d)) =
      if op = 0x01#8 then .ok (.start a d)
      else if op = 0x02#8 then .ok .stop
      else if op = 0x03#8 then .ok (.setone a d)
      else if op = 0x04#8 then .ok (.setall d)
      else if op = 0x05#8 then .ok (.getone a)
      else .error (.reservedOpcode op) := by
  simp only [decode, decodeCmd, cmdOp_cmdWord, cmdA_cmdWord, cmdD_cmdWord]

/-- Settles O2: the fields of an assembled command word are what was put in; pins and phase codes are fixed words. -/
theorem decodeInvertsEncode : Obligations.DecodeInvertsEncode := by
  intro i
  cases i with
  | start freq maxb => exact decode_cmdWord 0x01 freq maxb
  | stop => exact decode_cmdWord 0x02 0 0
  | setone index value => exact decode_cmdWord 0x03 index value
  | setall value => exact decode_cmdWord 0x04 0 value
  | getone index => exact decode_cmdWord 0x05 index 0
  | _ => rfl

/-- A command word that decodes, by its fields: the operation code is the operation's, the fields it reads are its
operands, the others are any (R93, R98). -/
theorem decode_cmd_fields {w : Word} {i : Instr} (h : decode (.cmd w) = .ok i) :
    (∃ freq maxb, i = .start freq maxb ∧ w = cmdWord 0x01 freq maxb)
    ∨ (i = .stop ∧ ∃ a d, w = cmdWord 0x02 a d)
    ∨ (∃ index value, i = .setone index value ∧ w = cmdWord 0x03 index value)
    ∨ (∃ value, i = .setall value ∧ ∃ a, w = cmdWord 0x04 a value)
    ∨ (∃ index, i = .getone index ∧ ∃ d, w = cmdWord 0x05 index d) := by
  have fields := cmdWord_fields w
  simp only [decode, decodeCmd] at h
  repeat' split at h
  all_goals cases h
  all_goals rename_i hop; rw [hop] at fields
  · exact .inl ⟨_, _, rfl, fields.symm⟩
  · exact .inr (.inl ⟨rfl, _, _, fields.symm⟩)
  · exact .inr (.inr (.inl ⟨_, _, rfl, fields.symm⟩))
  · exact .inr (.inr (.inr (.inl ⟨_, rfl, _, fields.symm⟩)))
  · exact .inr (.inr (.inr (.inr ⟨_, rfl, _, fields.symm⟩)))

/-! ### The bits a command reads (R98) -/

theorem cmdWord_and_op_d (op : BitVec 8) (a : BitVec 16) (d : BitVec 8) :
    cmdWord op a d &&& 0xFF0000FF = cmdWord op 0 d := by
  have h := cmdWord_and op (BitVec.allOnes 8) a 0#16 d (BitVec.allOnes 8)
  rwa [BitVec.and_allOnes, BitVec.and_zero, BitVec.and_allOnes] at h

theorem cmdWord_and_op_a (op : BitVec 8) (a : BitVec 16) (d : BitVec 8) :
    cmdWord op a d &&& 0xFFFFFF00 = cmdWord op a 0 := by
  have h := cmdWord_and op (BitVec.allOnes 8) a (BitVec.allOnes 16) d 0#8
  rwa [BitVec.and_allOnes, BitVec.and_allOnes, BitVec.and_zero] at h

/-- A command word decodes to an operation exactly when its used bits are the word the operation encodes to. -/
theorem decode_cmd_iff (w : Word) (i : Instr) : decode (.cmd w) = .ok i ↔ encode i = .cmd (w &&& usedBits i) := by
  constructor
  · intro h
    rcases decode_cmd_fields h with ⟨freq, maxb, rfl, rfl⟩ | ⟨rfl, a, d, rfl⟩ | ⟨index, value, rfl, rfl⟩
      | ⟨value, rfl, a, rfl⟩ | ⟨index, rfl, d, rfl⟩
    · exact congrArg PortWord.cmd BitVec.and_allOnes.symm
    · exact congrArg PortWord.cmd (Laws.RowMatch.cmdWord_opcode 0x02 a d).symm
    · exact congrArg PortWord.cmd BitVec.and_allOnes.symm
    · exact congrArg PortWord.cmd (cmdWord_and_op_d 0x04 a value).symm
    · exact congrArg PortWord.cmd (cmdWord_and_op_a 0x05 index d).symm
  · intro h
    obtain ⟨op, a, d, rfl⟩ : ∃ op a d, w = cmdWord op a d := ⟨_, _, _, (cmdWord_fields w).symm⟩
    cases i with
    | start freq maxb =>
      have h : cmdWord 0x01 freq maxb = cmdWord op a d := (PortWord.cmd.inj h).trans BitVec.and_allOnes
      obtain ⟨rfl, rfl, rfl⟩ := cmdWord_inj h
      exact decode_cmdWord 0x01 freq maxb
    | stop =>
      have h := (PortWord.cmd.inj h).trans (Laws.RowMatch.cmdWord_opcode op a d)
      obtain ⟨rfl, _, _⟩ := cmdWord_inj h
      exact decode_cmdWord 0x02 a d
    | setone index value =>
      have h : cmdWord 0x03 index value = cmdWord op a d := (PortWord.cmd.inj h).trans BitVec.and_allOnes
      obtain ⟨rfl, rfl, rfl⟩ := cmdWord_inj h
      exact decode_cmdWord 0x03 index value
    | setall value =>
      have h := (PortWord.cmd.inj h).trans (cmdWord_and_op_d op a d)
      obtain ⟨rfl, _, rfl⟩ := cmdWord_inj h
      exact decode_cmdWord 0x04 a value
    | getone index =>
      have h := (PortWord.cmd.inj h).trans (cmdWord_and_op_a op a d)
      obtain ⟨rfl, rfl, _⟩ := cmdWord_inj h
      exact decode_cmdWord 0x05 index d
    | _ => cases h

/-- Settles O4: both halves read `decode_cmd_iff`, in its two directions. -/
theorem encodeInvertsDecodeButForIgnoredFields : Obligations.EncodeInvertsDecodeButForIgnoredFields := by
  intro w i h
  have used := (decode_cmd_iff w i).mp h
  exact ⟨used, fun w' hw' => (decode_cmd_iff w' i).mpr (hw' ▸ used)⟩

/-! ### The opcode table (R93, R94, R99) -/

/-- Every operation's word matches one row of the table, the row of its mnemonic. -/
theorem rowMatch (i : Instr) : Laws.RowMatch.Statement i := by
  cases i with
  | start freq maxb => exact Laws.RowMatch.start freq maxb
  | setone index value => exact Laws.RowMatch.setone index value
  | setall value => exact Laws.RowMatch.setall value
  | getone index => exact Laws.RowMatch.getone index
  | _ => rfl

/-- A row selects an operation's word exactly when it is the row of its mnemonic: no two rows share one. -/
theorem selects_encode_iff (i : Instr) {r : OpcodeRow} (hr : r ∈ opcodeTable) :
    r.selects (encode i) = true ↔ i.mnemonic = r.mnemonic := by
  have distinct : (opcodeTable.map OpcodeRow.mnemonic).Nodup := by decide
  have row : ∀ m, m ∈ (opcodeTable.filter (·.selects (encode i))).map OpcodeRow.mnemonic ↔ m = i.mnemonic := by
    intro m
    rw [rowMatch i, List.mem_singleton]
  simp only [List.mem_map, List.mem_filter] at row
  constructor
  · intro h
    exact ((row r.mnemonic).mp ⟨r, ⟨hr, h⟩, rfl⟩).symm
  · intro h
    obtain ⟨r', ⟨hr', hs⟩, hm⟩ := (row r.mnemonic).mpr h.symm
    exact List.inj_on_of_nodup_map distinct hr' hr hm ▸ hs

/-- On the command port a row looks at the operation code alone. -/
theorem selects_cmdWord (op : BitVec 8) (a : BitVec 16) (d : BitVec 8) {r : OpcodeRow} (hr : r ∈ opcodeTable) :
    r.selects (.cmd (cmdWord op a d)) = (decide (r.port = .cmd) && decide (cmdWord op 0 0 = r.value)) := by
  have rows := congrArg (r ∈ ·) (Laws.RowMatch.cmd_rows op a d)
  simp only [List.mem_filter, hr, true_and] at rows
  exact Bool.eq_iff_iff.mpr (iff_of_eq rows)

theorem exists_eq_cmd_of_port {pw : PortWord} (h : pw.port = .cmd) : ∃ w, pw = .cmd w := by
  cases pw with
  | cmd w => exact ⟨w, rfl⟩
  | _ => cases h

/-- Off the command port a word that decodes is the word its operation encodes to (R94, R99). -/
theorem eq_encode_of_decode {pw : PortWord} {i : Instr} (h : decode pw = .ok i) (hp : pw.port ≠ .cmd) : pw = encode i := by
  cases pw with
  | cmd w => exact absurd rfl hp
  | tick b | reset b =>
    simp only [decode, decodePin] at h
    split at h <;> cases h
    rename_i hb
    rw [hb]; rfl
  | phase c =>
    simp only [decode, decodePhase] at h
    repeat' split at h
    all_goals cases h
    all_goals rename_i hc; rw [hc]; rfl

/-- The rows see a word that decodes as they see the word its operation encodes to. -/
theorem selects_of_decode {pw : PortWord} {i : Instr} (h : decode pw = .ok i) {r : OpcodeRow} (hr : r ∈ opcodeTable) :
    r.selects pw = r.selects (encode i) := by
  by_cases hp : pw.port = .cmd
  · obtain ⟨w, rfl⟩ := exists_eq_cmd_of_port hp
    rcases decode_cmd_fields h with ⟨_, _, rfl, rfl⟩ | ⟨rfl, _, _, rfl⟩ | ⟨_, _, rfl, rfl⟩ | ⟨_, rfl, _, rfl⟩
      | ⟨_, rfl, _, rfl⟩
    all_goals exact (selects_cmdWord _ _ _ hr).trans (selects_cmdWord _ _ _ hr).symm
  · rw [← eq_encode_of_decode h hp]

/-- A command word is rejected exactly when its operation code is none of the five, and by that code (R93, R98). -/
theorem decode_cmd_error_iff (w : Word) (e : Reject) :
    decode (.cmd w) = .error e ↔ cmdOp w ∉ [0x01#8, 0x02#8, 0x03#8, 0x04#8, 0x05#8] ∧ .reservedOpcode (cmdOp w) = e := by
  simp only [decode, decodeCmd]
  repeat' split
  all_goals simp [*]

/-- A word off the command port that selects nothing: a pin that is not asserted, IDLE, or the unused code (R94, R99). -/
theorem mem_of_decode_error {pw : PortWord} {e : Reject} (h : decode pw = .error e) (hp : pw.port ≠ .cmd) :
    pw ∈ [.tick 0, .reset 0, .phase 0, .phase 7] := by
  have rejected : (decode pw).isOk = false := by rw [h]; rfl
  clear h
  cases pw with
  | cmd w => exact absurd rfl hp
  | tick b | reset b | phase c => clear hp; decide +revert

/-- A word that is rejected matches no row (R98). -/
theorem not_selects_of_decode_error {pw : PortWord} {e : Reject} (h : decode pw = .error e) {r : OpcodeRow}
    (hr : r ∈ opcodeTable) : r.selects pw = false := by
  by_cases hp : pw.port = .cmd
  · obtain ⟨w, rfl⟩ := exists_eq_cmd_of_port hp
    have codes : ∀ r ∈ opcodeTable, r.port = .cmd → cmdOp r.value ∈ [0x01#8, 0x02#8, 0x03#8, 0x04#8, 0x05#8] := by decide
    have reserved := ((decode_cmd_error_iff w e).mp h).1
    rw [← cmdWord_fields w, selects_cmdWord _ _ _ hr]
    simp only [Bool.and_eq_false_imp, decide_eq_true_eq, decide_eq_false_iff_not]
    intro port value
    have code := codes r hr port
    rw [← value, cmdOp_cmdWord] at code
    exact reserved code
  · have rows : ∀ pw' ∈ [PortWord.tick 0, .reset 0, .phase 0, .phase 7], ∀ r' ∈ opcodeTable, r'.selects pw' = false := by
      decide
    exact rows pw (mem_of_decode_error h hp) r hr

/-- Settles O3: a word that decodes is seen by the rows as its operation's word is, a rejected one matches none. -/
theorem decodeFollowsTheOpcodeTable : Obligations.DecodeFollowsTheOpcodeTable := by
  intro pw r hr
  cases hd : decode pw with
  | ok i => simp [selects_of_decode hd hr, selects_encode_iff i hr]
  | error e => simp [not_selects_of_decode_error hd hr]

/-! ### Words written out in the spec -/

/-- Settles O1: the decoder evaluated at sixteen fixed words. -/
theorem specWordsDecode : Obligations.SpecWordsDecode := by
  unfold Obligations.SpecWordsDecode
  decide

/-! ### Turns and the words they present (R95 to R97, R172) -/

/-- HOST presents a command when it is in the middle of nothing (R95). -/
theorem select_command_of_free {s : State} {w : Word} {rest : List Turn} (hs : s.script = .command w :: rest)
    (hb : s.hostBusy = false) : select s = (.word (.cmd w), s.setScript rest) := by
  simp [select, hs, hb]

/-- A command waits while HOST is in the middle of something (R95). -/
theorem select_command_of_busy {s : State} {w : Word} {rest : List Turn} (hs : s.script = .command w :: rest)
    (hb : s.hostBusy = true) : select s = hostMove s := by
  simp [select, hs, hb]

/-- ENGINE's turn is ENGINE's move (R172). -/
theorem select_engine {s : State} {rest : List Turn} (hs : s.script = .engine :: rest) :
    select s = engineMove (s.setScript rest) := by
  simp [select, hs]

/-- HOST's own move takes no turn from the script. -/
theorem hostMove_script (s : State) : (hostMove s).2.script = s.script := by
  rcases hostMove_cases s with ⟨_, _, e⟩ | ⟨_, _, e⟩ | ⟨_, _, _, _, e⟩ | ⟨_, _, _, _, _, e⟩ | ⟨_, _, _, _, _, e⟩
    | ⟨_, _, _, e⟩ <;> rw [e] <;> rfl

/-- HOST has a move whenever it is in the middle of something. -/
theorem hostMove_ne_nothing {s : State} (hb : s.hostBusy = true) : (hostMove s).1 ≠ .nothing := by
  rcases hostMove_cases s with ⟨_, _, e⟩ | ⟨hn, hc, e⟩ | ⟨_, _, _, _, e⟩ | ⟨_, _, _, _, _, e⟩ | ⟨_, _, _, _, _, e⟩
    | ⟨_, _, _, e⟩ <;> rw [e]
  case inr.inl => simp [State.hostBusy, hn, hc] at hb
  all_goals nofun

/-- Settles O39: `select` on each head of the script; ENGINE's word by its phase. -/
theorem turnsPresentTheirWords : Obligations.TurnsPresentTheirWords := by
  intro s rest
  refine ⟨fun w hs hb => select_command_of_free hs hb, fun w hs hb => ?_, fun hs => by simp [select, hs, State.setScript],
    fun hs => by simp [select, hs, State.setScript], fun hs hp => ?_, fun hs hp => ?_⟩
  · have hm := select_command_of_busy hs hb
    rw [hm]
    exact ⟨rfl, hostMove_ne_nothing hb, hostMove_script s⟩
  · rw [select_engine hs]
    simpa [hp, State.setScript] using engineMove_cases (s.setScript rest)
  · rw [select_engine hs]
    simpa [hp, State.setScript] using engineMove_cases (s.setScript rest)

/-! ### Reserved words (R98) -/

/-- Settles O5: the word is performed as `noop`, and a step that leaves the registers alone makes no edge on a line. -/
theorem reservedWordsChangeNothing : Obligations.ReservedWordsChangeNothing := by
  intro s w rest hs hb h1 h2 h3 h4 h5
  have reserved : decode (.cmd w) = .error (.reservedOpcode (cmdOp w)) :=
    (decode_cmd_error_iff w _).mpr ⟨by simpa using ⟨h1, h2, h3, h4, h5⟩, rfl⟩
  have noop : step s = .next (chainReact s (s.setScript rest).respUndefined) := by
    simp [step, takeTurn, select_command_of_free hs hb, perform, runWord, reserved, mapNext]
  refine ⟨_, noop, by simp, by simp, by simp, by simp, by simp, by simp, fun hoe => ?_⟩
  rw [chainReact_driven s (s.setScript rest).respUndefined hoe hoe]
  exact Chain.driven_no_edge _ (risingEdge_self _) (risingEdge_self _)

/-! ### A SETALL under way (R95, R122, R261) -/

/-- `MemRead` after one write to the buffer. -/
theorem State.memRead_of_write {s t : State} {i : Nat} {v : Byte} (hb : t.buf = s.buf.write i v) (a : Nat) :
    t.memRead a = if a = i then v else s.memRead a :=
  (State.memRead_congr (s := s.memWrite i v) hb a).trans (State.memRead_memWrite s i a v)

/-- While a SETALL is under way no command word is presented (R95). -/
theorem select_ne_cmd {s : State} {r : SetallRun} (hr : s.setall = some r) (w : Word) : (select s).1 ≠ .word (.cmd w) := by
  intro hm
  rcases select_word hm with ⟨_, _, hn⟩ | h | h | ⟨_, h⟩
  · cases hr.symm.trans hn
  all_goals cases h

/-- The operations that write the buffer come from the command port alone (R93). -/
theorem decode_buffer_write {pw : PortWord} {i : Instr} (hd : decode pw = .ok i)
    (hi : (∃ index value, i = .setone index value) ∨ ∃ value, i = .setall value) : ∃ w, pw = .cmd w := by
  by_contra hp
  have e := eq_encode_of_decode hd (fun h => hp (exists_eq_cmd_of_port h))
  rcases hi with ⟨_, _, rfl⟩ | ⟨_, rfl⟩ <;> exact hp ⟨_, e⟩

/-- Settles O12: with no command word presented, the step performs RESET, the next iteration, or writes neither the
buffer nor the SETALL. -/
theorem setallEndsByItsWritesOrByReset : Obligations.SetallEndsByItsWritesOrByReset := by
  intro s t r hr h
  have frame := select_frame s
  refine ⟨select_ne_cmd hr, ?_⟩
  rcases step_block h with ⟨pw, i, u, hm, hd, he, hregs, hbuf, hset⟩ | ⟨r', hr', hregs, hbuf, hset⟩ | ⟨_, hbuf, hset⟩
  · have no_write : ¬ ((∃ index value, i = .setone index value) ∨ ∃ value, i = .setall value) := by
      intro hi
      obtain ⟨w, rfl⟩ := decode_buffer_write hd hi
      exact select_ne_cmd hr w hm
    rcases exec_store he with ⟨index, value, hi, _⟩ | ⟨value, hi, _⟩ | ⟨rfl, hb, ho⟩ | ⟨hb, ho⟩
    · exact absurd (.inl ⟨index, value, hi⟩) no_write
    · exact absurd (.inr ⟨value, hi⟩) no_write
    · cases he
      exact .inr (.inr ⟨hset.trans ho, hregs, State.memRead_congr (hbuf.trans (hb.trans frame.buf))⟩)
    · exact .inl ⟨hset.trans (ho.trans (frame.setall.trans hr)), State.memRead_congr (hbuf.trans (hb.trans frame.buf))⟩
  · obtain rfl : r = r' := Option.some.inj (hr.symm.trans hr')
    have read := State.memRead_of_write hbuf
    exact .inr (.inl ⟨hset, by rw [read, if_pos rfl], fun a ha => by rw [read, if_neg ha], hregs⟩)
  · exact .inl ⟨hset.trans hr, State.memRead_congr hbuf⟩

end Sys2Proof.Machine

/-! PROOFS. The buffer commands' family: SETONE, SETALL and GETONE as operations, and a SETALL carried through to its
last slot. -/

namespace Sys2Proof.Machine

/-! ### The index operand (R62) and SETONE (R120, R121) -/

theorem slotInRange_of_lt {p : Params} {index : BitVec 16} (h : index.toNat < p.nch) : slotInRange p index = true :=
  decide_eq_true h

theorem slotInRange_of_le {p : Params} {index : BitVec 16} (h : p.nch ≤ index.toNat) : slotInRange p index = false :=
  decide_eq_false (Nat.not_lt.mpr h)

theorem exec_setone_inside {s : State} {index : BitVec 16} (h : index.toNat < s.params.nch) (value : Byte) :
    exec (.setone index value) s = .next (s.memWrite index.toNat value).respUndefined :=
  if_pos (slotInRange_of_lt h)

theorem exec_setone_outside {s : State} {index : BitVec 16} (h : s.params.nch ≤ index.toNat) (value : Byte) :
    exec (.setone index value) s = .next s.respUndefined :=
  if_neg (by simp [slotInRange_of_le h])

/-- Settles O9: one case for each range of the index, its next state read by the law of `MemRead` after `MemWrite`. -/
theorem setoneWritesOneSlot : Obligations.SetoneWritesOneSlot := by
  intro s index value
  rcases Nat.lt_or_ge index.toNat s.params.nch with hi | hi
  · refine ⟨_, exec_setone_inside hi value, fun _ => ⟨by simp, fun a ha => by simp [ha]⟩,
      fun ho => absurd hi (Nat.not_lt.mpr ho), rfl, rfl, rfl, rfl, rfl, rfl⟩
  · exact ⟨_, exec_setone_outside hi value, fun ho => absurd ho (Nat.not_lt.mpr hi), fun _ => ⟨rfl, fun _ => rfl⟩,
      rfl, rfl, rfl, rfl, rfl, rfl⟩

/-! ### One iteration of SETALL (R122) -/

section SetallWrite
variable (i : Nat) (value : Byte) (s : State)

@[simp] theorem setallWrite_params : (setallWrite i value s).params = s.params := rfl
@[simp] theorem setallWrite_regs : (setallWrite i value s).regs = s.regs := rfl
@[simp] theorem setallWrite_setall : (setallWrite i value s).setall = setallAfter s.params i value := rfl
@[simp] theorem setallWrite_host : (setallWrite i value s).host = s.host := rfl
@[simp] theorem setallWrite_script : (setallWrite i value s).script = s.script := rfl

@[simp] theorem setallWrite_memRead (a : Nat) :
    (setallWrite i value s).memRead a = if a = i then value else s.memRead a :=
  State.memRead_memWrite s i a value

end SetallWrite

/-- SETALL completes in every state, as its first iteration (R122, log 9). -/
theorem exec_setall (value : Byte) (s : State) : exec (.setall value) s = .next (setallWrite 0 value s) := rfl

/-- Settles O10: the laws of one iteration, at slot 0. -/
theorem setallWritesItsFirstSlot : Obligations.SetallWritesItsFirstSlot := fun s value =>
  ⟨_, exec_setall value s, by simp, fun a ha => by simp [ha], rfl, rfl, rfl, rfl, rfl, rfl⟩

/-! ### GETONE (R124), and the registers (R125) -/

/-- Settles O13: the two ranges of the index in `exec_getone`. -/
theorem getoneReadsOneSlot : Obligations.GetoneReadsOneSlot := by
  intro s index
  constructor
  · intro hi
    rw [exec_getone, slotInRange_of_lt hi]
    rfl
  · intro ho
    rw [exec_getone, slotInRange_of_le ho]
    rfl

/-- Settles O14: SETONE in its two ranges; the next state of each command names no register. -/
theorem bufferCommandsIgnoreTheRegisters : Obligations.BufferCommandsIgnoreTheRegisters := by
  rintro i (⟨index, value, rfl⟩ | ⟨value, rfl⟩ | ⟨index, rfl⟩) s r
  · rcases Nat.lt_or_ge index.toNat s.params.nch with hi | hi
    · rw [exec_setone_inside hi, exec_setone_inside (s := s.setRegs r) hi]
      rfl
    · rw [exec_setone_outside hi, exec_setone_outside (s := s.setRegs r) hi]
      rfl
  · rw [exec_setall, exec_setall]
    rfl
  · rw [exec_getone, exec_getone]
    rfl

/-! ### A SETALL without interruption (R95, R122) -/

/-- A step whose selected word is an operation that completes: the operation, what the host software notes, the chain's
reaction. -/
theorem step_of_select_word {s u v : State} {pw : PortWord} {i : Instr} (hs : select s = (.word pw, u))
    (hd : decode pw = .ok i) (he : exec i u = .next v) : step s = .next (chainReact s (v.hostNotes i)) := by
  simp only [step, takeTurn, hs, perform, runWord, hd, he, mapNext]

/-- A turn of HOST during a SETALL is the next iteration. -/
theorem select_host_of_setall {s : State} {r : SetallRun} {rest : List Turn} (hs : s.script = .host :: rest)
    (hr : s.setall = some r) : select s = (.setallNext r, s.setScript rest) := by
  simp [select, hs, hostMove, hr]

/-- The step of a SETALL command with HOST free: its first iteration (log 9). -/
theorem step_setall {s : State} {value : Byte} {rest : List Turn} (hb : s.hostBusy = false)
    (hs : s.script = .command (cmdWord 0x04 0 value) :: rest) :
    step s = .next (chainReact s (setallWrite 0 value (s.setScript rest))) :=
  step_of_select_word (select_command_of_free hs hb) (decodeInvertsEncode (.setall value))
    (exec_setall value (s.setScript rest))

/-- The step of a HOST turn during a SETALL: the next iteration (R122). -/
theorem step_setallNext {s : State} {r : SetallRun} {rest : List Turn} (hs : s.script = .host :: rest)
    (hr : s.setall = some r) : step s = .next (chainReact s (setallWrite r.next r.value (s.setScript rest))) := by
  simp only [step, takeTurn, select_host_of_setall hs hr, perform, mapNext]

/-- `t` is what `s` becomes by the iterations of a SETALL up to that of slot `k`, with the turns `ts` still to come. -/
structure FilledTo (s : State) (value : Byte) (k : Nat) (ts : List Turn) (t : State) : Prop where
  memRead : ∀ a, t.memRead a = if a ≤ k then value else s.memRead a
  setall : t.setall = setallAfter s.params k value
  regs : t.regs = s.regs
  host : t.host = s.host
  params : t.params = s.params
  script : t.script = ts

/-- The accepting step fills slot 0. -/
theorem FilledTo.first {s : State} {value : Byte} {ts : List Turn} (hb : s.hostBusy = false)
    (hs : s.script = .command (cmdWord 0x04 0 value) :: ts) : ∃ t, step s = .next t ∧ FilledTo s value 0 ts t :=
  ⟨_, step_setall hb hs, by simp, by simp, by simp, by simp, by simp, by simp⟩

/-- A HOST turn fills the next slot, if one is left. -/
theorem FilledTo.next {s t : State} {value : Byte} {k : Nat} {ts : List Turn} (h : FilledTo s value k (.host :: ts) t)
    (hk : k + 1 < s.params.nch) : ∃ u, step t = .next u ∧ FilledTo s value (k + 1) ts u := by
  have under_way : t.setall = some ⟨k + 1, value⟩ := h.setall.trans (if_pos hk)
  refine ⟨_, step_setallNext h.script under_way, fun a => ?_, by simp [h.params], by simp [h.regs], by simp [h.host],
    by simp [h.params], by simp⟩
  simp only [chainReact_memRead, setallWrite_memRead, State.memRead_setScript, h.memRead]
  rcases eq_or_ne a (k + 1) with rfl | ha
  · simp
  · simp only [if_neg ha, show a ≤ k + 1 ↔ a ≤ k by omega]

/-- `n` HOST turns in a row fill the next `n` slots, as long as they are left. -/
theorem FilledTo.turns {s t : State} {value : Byte} {k n : Nat} {ts : List Turn}
    (h : FilledTo s value k (List.replicate n .host ++ ts) t) (hk : k + n < s.params.nch) :
    ∃ u, steps n t = .next u ∧ FilledTo s value (k + n) ts u := by
  induction n generalizing k t with
  | zero => exact ⟨t, steps_zero t, h⟩
  | succ n ih =>
    obtain ⟨v, hv, hf⟩ := h.next (by omega)
    obtain ⟨u, hu, hf⟩ := ih hf (by omega)
    exact ⟨u, (steps_succ_next hv).trans hu, by rwa [Nat.add_right_comm, Nat.add_assoc] at hf⟩

/-- Settles O11: the accepting step fills slot 0, the `NCH - 1` HOST turns fill the others. -/
theorem setallFillsTheBuffer : Obligations.SetallFillsTheBuffer := by
  intro s value rest hp hb hs
  obtain ⟨n, hn⟩ := Nat.exists_eq_succ_of_ne_zero (nch_pos hp).ne'
  rw [hn, Nat.succ_sub_one] at hs
  obtain ⟨t, ht, hf⟩ := FilledTo.first hb hs
  obtain ⟨u, hu, hf⟩ := hf.turns (by omega)
  rw [Nat.zero_add] at hf
  refine ⟨u, by rw [hn, steps_succ_next ht, hu], fun a ha => ?_, fun a ha => ?_, ?_, hf.regs, hf.host, hf.params,
    hf.script⟩
  · rw [hf.memRead, if_pos (by omega)]
  · rw [hf.memRead, if_neg (by omega)]
  · rw [hf.setall, setallAfter, if_neg (by omega)]

end Sys2Proof.Machine


/-! PROOFS. The host software's family: the scale and the colours, the commands of a grouped write, what any
pseudo-operation can send. -/

namespace Sys2Proof.Machine

/-! ### SETPINGROUPING (R141) -/

/-- Settles O52: the two branches of its arm. -/
theorem setPinGroupingSetsTheVariable : Obligations.SetPinGroupingSetsTheVariable := fun _ _ =>
  ⟨fun h => if_neg (Nat.one_le_iff_ne_zero.mp h), fun h => if_pos h⟩

/-! ### The scale (R146) -/

/-- A product of two bytes scaled down by 256 is at most `255 * 255 / 256`. -/
theorem byte_mul_div_le (a b : Byte) : a.toNat * b.toNat / 256 ≤ 254 := by
  have h : a.toNat * b.toNat ≤ 255 * 255 := Nat.mul_le_mul (Nat.le_of_lt_succ a.isLt) (Nat.le_of_lt_succ b.isLt)
  omega

/-- The scale is not truncated to its byte (R146). -/
theorem scale_toNat (m c : Byte) : (scale m c).toNat = c.toNat * m.toNat / 256 := by
  have h := byte_mul_div_le c m
  rw [scale, BitVec.toNat_ofNat]
  omega

/-- Settles O55: `scale_toNat`, and its value at both ends of the byte. -/
theorem scaleLaw : Obligations.ScaleLaw := by
  intro m c
  refine ⟨scale_toNat m c, ?_, ?_, ?_⟩
  · simp [scale]
  · have full : (255 : Byte).toNat = 255 := rfl
    have hm := m.isLt
    rw [scale_toNat, full]
    omega
  · rw [scale_toNat]
    exact byte_mul_div_le c m

/-! ### The colours (R149, R150) -/

/-- `bottom <= top` (R149). -/
theorem hsvBottom_le (sat val : Byte) : hsvBottom sat val ≤ val.toNat := by
  have h : (255 - sat.toNat) * val.toNat ≤ 255 * val.toNat := Nat.mul_le_mul_right _ (Nat.sub_le ..)
  unfold hsvBottom
  omega

/-- An interpolation at `k` sixtieths of the way from `bottom` to `top` lies between them. -/
theorem interpolation_between {bottom top k : Nat} (h : bottom ≤ top) (hk : k ≤ 60) :
    bottom ≤ (top - bottom) * k / 60 + bottom ∧ (top - bottom) * k / 60 + bottom ≤ top := by
  have scaled : (top - bottom) * k ≤ (top - bottom) * 60 := Nat.mul_le_mul_left _ hk
  omega

/-- A component between `bottom` and `top = val` (R149). -/
def InHsvRange (sat val x : Byte) : Prop := hsvBottom sat val ≤ x.toNat ∧ x.toNat ≤ val.toNat

/-- A number in the range is not truncated to its byte. -/
theorem InHsvRange.ofNat {sat val : Byte} {n : Nat} (h : hsvBottom sat val ≤ n ∧ n ≤ val.toNat) :
    InHsvRange sat val (BitVec.ofNat 8 n) := by
  have hv := val.isLt
  rwa [InHsvRange, BitVec.toNat_ofNat, Nat.mod_eq_of_lt (by omega)]

/-- Every row of the sextant table is made of `top`, `bottom`, `rising` and `falling`, all four in range (R150). -/
theorem hsvToRgb_inRange {hue : Nat} {sat val r g b : Byte} (h : hsvToRgb hue sat val = some (r, g, b)) :
    InHsvRange sat val r ∧ InHsvRange sat val g ∧ InHsvRange sat val b := by
  have hb := hsvBottom_le sat val
  have top : InHsvRange sat val val := ⟨hb, Nat.le_refl _⟩
  have bottom : InHsvRange sat val (BitVec.ofNat 8 (hsvBottom sat val)) := .ofNat ⟨Nat.le_refl _, hb⟩
  have rising : InHsvRange sat val (BitVec.ofNat 8 (hsvRising hue sat val)) :=
    .ofNat (interpolation_between hb (by omega))
  have falling : InHsvRange sat val (BitVec.ofNat 8 (hsvFalling hue sat val)) :=
    .ofNat (interpolation_between hb (Nat.sub_le ..))
  unfold hsvToRgb at h
  split at h <;> cases h
  · exact ⟨top, rising, bottom⟩
  · exact ⟨falling, top, bottom⟩
  · exact ⟨bottom, top, rising⟩
  · exact ⟨bottom, falling, top⟩
  · exact ⟨rising, bottom, top⟩
  · exact ⟨top, bottom, falling⟩

/-- Beyond the six sextants there is no colour (U12). -/
theorem hsvToRgb_of_le {hue : Nat} (h : 360 ≤ hue) (sat val : Byte) : hsvToRgb hue sat val = none := by
  obtain ⟨k, hk⟩ : ∃ k, hue / 60 = k + 6 := ⟨hue / 60 - 6, by omega⟩
  simp [hsvToRgb, hk]

/-- Settles O56: a hue below 360 has a row of the table, and the entries of every row are in range. -/
theorem hsvComponentsLieInRange : Obligations.HsvComponentsLieInRange := by
  intro hue sat val
  refine ⟨fun h => hsvToRgb_of_le h sat val, fun h => ?_⟩
  obtain ⟨⟨r, g, b⟩, hc⟩ := Option.ne_none_iff_exists'.mp fun hn => Nat.not_le.mpr h (hsvToRgb_none hn)
  obtain ⟨hr, hg, hb⟩ := hsvToRgb_inRange hc
  refine ⟨r, g, b, hc, ?_⟩
  rintro x (rfl | rfl | rfl)
  · exact hr
  · exact hg
  · exact hb

/-! ### A grouped write (R142) -/

/-- The index of a slot of the buffer fits the field of a command word (R8, R91). -/
theorem slotIndex_toNat {p : Params} (hp : p.wellFormed = true) {a : Nat} (ha : a < p.nch) :
    (BitVec.ofNat 16 a).toNat = a := by
  have hn := nRegs_range hp
  rw [BitVec.toNat_ofNat]
  unfold Params.nch at ha
  omega

@[simp] theorem setoneRun_length (grouping base : Nat) (vs : List Byte) :
    (setoneRun grouping base vs).length = vs.length := by
  induction vs generalizing base with
  | nil => rfl
  | cons v vs ih => simp [setoneRun, ih]

/-- The `j`-th command of a grouped write is a SETONE of the `j`-th value, `j` groupings above the base. -/
theorem setoneRun_getElem? (grouping base : Nat) (vs : List Byte) (j : Nat) :
    (setoneRun grouping base vs)[j]?
      = vs[j]?.map fun v => .send (cmdWord 0x03 (BitVec.ofNat 16 (base + j * grouping)) v) := by
  induction vs generalizing base j with
  | nil => rfl
  | cons v vs ih =>
    cases j with
    | zero => simp [setoneRun]
    | succ j =>
      have next : base + grouping + j * grouping = base + (j + 1) * grouping := by rw [Nat.succ_mul]; omega
      simp [setoneRun, ih, next]

section GroupWrites
variable {p : Params} {grouping group offset : Nat} {vs : List Byte}

theorem groupWrites_of_last_inside
    (h : groupBase grouping vs.length group offset + (vs.length - 1) * grouping < p.nch) :
    groupWrites p grouping group vs offset = setoneRun grouping (groupBase grouping vs.length group offset) vs :=
  if_pos h

theorem groupWrites_of_last_outside
    (h : p.nch ≤ groupBase grouping vs.length group offset + (vs.length - 1) * grouping) :
    groupWrites p grouping group vs offset = [] :=
  if_neg (Nat.not_lt.mpr h)

end GroupWrites

/-- With the last target inside the buffer every target is, and its index fits the command word: none lies above the
last (R142). -/
theorem target_inside {p : Params} (hp : p.wellFormed = true) {base grouping j : Nat} {vs : List Byte} {v : Byte}
    (hlast : base + (vs.length - 1) * grouping < p.nch) (hj : vs[j]? = some v) :
    (BitVec.ofNat 16 (base + j * grouping)).toNat = base + j * grouping ∧ base + j * grouping < p.nch := by
  obtain ⟨hlt, _⟩ := List.getElem?_eq_some_iff.mp hj
  have le_last : j * grouping ≤ (vs.length - 1) * grouping := Nat.mul_le_mul_right _ (Nat.le_sub_one_of_lt hlt)
  have inside := (Nat.add_le_add_left le_last base).trans_lt hlast
  exact ⟨slotIndex_toNat hp inside, inside⟩

/-- Settles O53: the two outcomes of the check of the last target; no other target lies above it. -/
theorem groupedWritesAllOrNothing : Obligations.GroupedWritesAllOrNothing := by
  rintro p grouping group offset _ vs hp - - rfl
  refine ⟨groupWrites_of_last_outside, fun hlast => ?_⟩
  rw [groupWrites_of_last_inside hlast]
  refine ⟨setoneRun_length .., fun j v hj => ?_⟩
  obtain ⟨index, inside⟩ := target_inside hp hlast hj
  exact ⟨_, _, by rw [setoneRun_getElem?, hj]; rfl, decodeInvertsEncode (.setone _ v), index,
    index.trans_lt inside⟩

/-! ### What a pseudo-operation can send (R6, R156) -/

/-- Every command of the list is a SETONE of a slot below `n`. -/
def WritesBelow (n : Nat) (as : List HostAction) : Prop :=
  ∀ w, .send w ∈ as → ∃ index value, decode (.cmd w) = .ok (.setone index value) ∧ index.toNat < n

theorem WritesBelow.nil (n : Nat) : WritesBelow n [] := nofun

/-- Read-backs and a replication after the commands send no SETONE of their own (R152). -/
theorem WritesBelow.append_readBack {n : Nat} {as : List HostAction} (h : WritesBelow n as) (slots : List Nat) :
    WritesBelow n (as ++ slots.map .readBack ++ [.replicate]) :=
  fun w hw => h w (by simpa using hw)

section WritesBelow
variable {p : Params} (hp : p.wellFormed = true) (grouping : Nat) (m r g b : Byte)
include hp

theorem groupWrites_below (group : Nat) (vs : List Byte) (offset : Nat) :
    WritesBelow p.nch (groupWrites p grouping group vs offset) := by
  rcases Nat.lt_or_ge (groupBase grouping vs.length group offset + (vs.length - 1) * grouping) p.nch with hlast | hlast
  · intro w hw
    rw [groupWrites_of_last_inside hlast] at hw
    obtain ⟨j, hj⟩ := List.mem_iff_getElem?.mp hw
    rw [setoneRun_getElem?] at hj
    obtain ⟨v, hv, hw⟩ := Option.map_eq_some_iff.mp hj
    cases hw
    obtain ⟨index, inside⟩ := target_inside hp hlast hv
    exact ⟨_, v, decodeInvertsEncode (.setone _ v), index.trans_lt inside⟩
  · rw [groupWrites_of_last_outside hlast]
    exact .nil _

theorem rgbWrites_below (channel offset : Nat) :
    WritesBelow p.nch (rgbWrites p grouping m channel r g b offset) :=
  groupWrites_below hp _ _ _ _

theorem allRgbWrites_below : WritesBelow p.nch (allRgbWrites p grouping m r g b) := by
  intro w hw
  obtain ⟨group, _, hw⟩ := List.mem_flatMap.mp hw
  exact rgbWrites_below hp grouping m r g b group 0 w hw

end WritesBelow

/-- Beginning a pseudo-operation leaves what HOST still does, or makes it writes of slots of the buffer. -/
theorem performOp_current {o : HostOp} {s t : State} (hp : s.params.wellFormed = true) (h : performOp o s = .next t) :
    t.host.current = s.host.current ∨ WritesBelow s.params.nch t.host.current := by
  cases o with
  | setPinGrouping grouping =>
    simp only [performOp] at h
    split at h <;> cases h
    exact .inl rfl
  | setRgb channel r g b offset =>
    simp only [performOp] at h
    obtain ⟨n, _, h⟩ := withGrouping_next h
    cases h
    exact .inr (rgbWrites_below hp _ _ _ _ _ _ _)
  | setAllRgb r g b =>
    simp only [performOp] at h
    obtain ⟨n, _, h⟩ := withGrouping_next h
    cases h
    exact .inr (allRgbWrites_below hp _ _ _ _ _)
  | setHsv channel hue sat val offset =>
    simp only [performOp] at h
    obtain ⟨n, _, h⟩ := withGrouping_next h
    obtain ⟨rgb, _, h⟩ := withHsv_next h
    cases h
    exact .inr (rgbWrites_below hp _ _ _ _ _ _ _)
  | setAllHsv hue sat val =>
    simp only [performOp] at h
    obtain ⟨n, _, h⟩ := withGrouping_next h
    obtain ⟨rgb, _, h⟩ := withHsv_next h
    cases h
    exact .inr ((rgbWrites_below hp _ _ _ _ _ _ _).append_readBack _)
  | oneByOneSlow => cases h
  | oneByOneFast => cases h
  | _ =>
    simp only [performOp] at h
    obtain ⟨n, _, h⟩ := withGrouping_next h
    cases h
    exact .inr (groupWrites_below hp _ _ _ _)

/-- The second half of SETALLHSV writes slots of the buffer (R152). -/
theorem replicateKept_current {s t : State} (hp : s.params.wellFormed = true) (h : replicateKept s = .next t) :
    WritesBelow s.params.nch t.host.current := by
  unfold replicateKept at h
  split at h
  · obtain ⟨n, _, h⟩ := withGrouping_next h
    cases h
    exact allRgbWrites_below hp _ _ _ _ _
  · cases h

/-- A word HOST presents for its pseudo-operation is one it holds, or a GETONE (R142, R152). -/
theorem hostMove_word {s : State} {pw : PortWord} (h : (hostMove s).1 = .word pw) :
    ∃ w, pw = .cmd w ∧ (.send w ∈ s.host.current ∨ ∃ index, decode (.cmd w) = .ok (.getone index)) := by
  rcases hostMove_cases s with ⟨_, _, e⟩ | ⟨_, _, e⟩ | ⟨w, rest, _, hc, e⟩ | ⟨slot, _, _, _, _, e⟩ | ⟨_, _, _, _, _, e⟩
    | ⟨_, _, _, e⟩ <;> rw [e] at h <;> cases h
  · exact ⟨w, rfl, .inl (by simp [hc])⟩
  · exact ⟨_, rfl, .inr ⟨_, decodeInvertsEncode (.getone (BitVec.ofNat 16 slot))⟩⟩

/-- Settles O54: beginning concerns the host software alone, and its lists hold writes of slots of the buffer. -/
theorem hostSoftwareReachesTheBufferOnly : Obligations.HostSoftwareReachesTheBufferOnly := by
  refine ⟨?_, fun _ _ h => hostMove_word h⟩
  rintro s t hp (⟨o, h⟩ | h)
  · have current := performOp_current hp h
    obtain ⟨_, rfl⟩ := performOp_setHost h
    refine ⟨rfl, rfl, rfl, rfl, rfl, fun w hw => ?_⟩
    rcases current with same | below
    · exact .inl (same ▸ hw)
    · exact .inr (below w hw)
  · have below := replicateKept_current hp h
    obtain ⟨_, _, _, rfl⟩ := replicateKept_next h
    exact ⟨rfl, rfl, rfl, rfl, rfl, fun w hw => .inr (below w hw)⟩

end Sys2Proof.Machine

/-! PROOFS. The engine's family: the comparison and the duty-cycle law, the counter, TICK and the countdown, the
micro-operations one by one, and a whole pass with the frame it presents. -/

namespace Sys2Proof.Machine

/-! ### The micro-operations, one effect each (R173 to R179) -/

section MicroEffects
variable (s : State)

theorem exec_pLatchlo : exec .pLatchlo s = .next (s.setRegs { s.regs with latch := false, phase := .data }) := rfl
theorem exec_pClklo : exec .pClklo s = .next (s.setRegs { s.regs with clock := false, phase := .clkHigh }) := rfl
theorem exec_pClkhi : exec .pClkhi s = .next (s.setRegs (clkhiRegs s.params s.regs)) := rfl
theorem exec_pLatchhi : exec .pLatchhi s = .next (s.setRegs { s.regs with latch := true, phase := .finish }) := rfl
theorem exec_pFinish : exec .pFinish s
    = .next (s.setRegs (endPass { s.regs with counter := advanceCounter s.regs.maxb s.regs.counter })) := rfl

variable {s}

theorem exec_pData_inside (h : s.regs.idx.toNat < s.params.nch) : exec .pData s = .next (s.setRegs { s.regs with
    data := compareBit s.params (s.memRead s.regs.idx.toNat) s.regs.cmp, phase := .clkLow }) :=
  if_pos h

end MicroEffects

section ClockHigh
variable (p : Params) {r : Regs}

/-- After the last channel P_CLKHI goes on to the latch (R177). -/
theorem clkhiRegs_last (h : r.idx = 0#16) :
    clkhiRegs p r = { r with clock := true, cmp := cmpAfterShift p r, phase := .latchHigh } :=
  if_pos h

/-- After any other channel P_CLKHI goes on to the next one down (R177). -/
theorem clkhiRegs_more (h : r.idx ≠ 0#16) :
    clkhiRegs p r = { r with clock := true, cmp := cmpAfterShift p r, idx := r.idx - 1, phase := .data } :=
  if_neg h

end ClockHigh

/-- Settles O27: `exec_pLatchlo`. -/
theorem latchLowEffect : Obligations.LatchLowEffect := exec_pLatchlo

/-- Settles O28: `exec_pData_inside`, its comparison written out. -/
theorem dataStepEffect : Obligations.DataStepEffect := fun _ h => exec_pData_inside h

/-- Settles O30: `exec_pClklo`. -/
theorem clockLowEffect : Obligations.ClockLowEffect := exec_pClklo

/-- Settles O31: the two branches of the loop control; the offset is the one of `cmpAfterShift`. -/
theorem clockHighEffect : Obligations.ClockHighEffect := by
  rintro s cmp' hc
  have offset : cmpAfterShift s.params s.regs = cmp' := by
    simp [hc, cmpAfterShift, registerBoundary, addOffset, lbMod]
  rw [exec_pClkhi, ← offset]
  exact ⟨fun h => by rw [clkhiRegs_last _ h]; rfl, fun h => by rw [clkhiRegs_more _ h]; rfl⟩

/-- Settles O32: `exec_pLatchhi`. -/
theorem latchHighEffect : Obligations.LatchHighEffect := exec_pLatchhi

/-- Settles O33: `exec_pFinish`, its counter update written out. -/
theorem finishEffect : Obligations.FinishEffect := exec_pFinish

/-! ### What a micro-operation writes and reads (R172, R192) -/

/-- What a micro-operation keeps of the registers. -/
structure KeepsConfig (r r' : Regs) : Prop where
  maxb : r'.maxb = r.maxb
  presc : r'.presc = r.presc
  pcount : r'.pcount = r.pcount
  enable : r'.enable = r.enable
  oe : r'.oe = r.oe

theorem clkhiRegs_keepsConfig (p : Params) (r : Regs) : KeepsConfig r (clkhiRegs p r) := by
  unfold clkhiRegs
  split <;> exact ⟨rfl, rfl, rfl, rfl, rfl⟩

theorem clkhiRegs_setEnable (p : Params) (r : Regs) (e : Bool) :
    clkhiRegs p { r with enable := e } = { clkhiRegs p r with enable := e } := by
  unfold clkhiRegs
  split <;> rfl

/-- A micro-operation that completes replaces the registers alone, and keeps the configuration in them. -/
theorem exec_micro_next {i : Instr} {ph : Phase} (hi : microPhase i = some ph) {s t : State} (h : exec i s = .next t) :
    t = s.setRegs t.regs ∧ KeepsConfig s.regs t.regs := by
  cases i with
  | pData => obtain ⟨_, rfl⟩ := execPData_next h; exact ⟨rfl, rfl, rfl, rfl, rfl, rfl⟩
  | pClkhi => cases h; exact ⟨rfl, clkhiRegs_keepsConfig _ _⟩
  | pLatchlo | pClklo | pLatchhi | pFinish => cases h; exact ⟨rfl, rfl, rfl, rfl, rfl, rfl⟩
  | _ => cases hi

/-- The six micro-operations are the operations that a phase selects (R99). -/
theorem microPhase_of_mem {i : Instr} (h : i ∈ [Instr.pLatchlo, .pData, .pClklo, .pClkhi, .pLatchhi, .pFinish]) :
    ∃ ph, microPhase i = some ph := by
  simp only [List.mem_cons, List.not_mem_nil, or_false] at h
  rcases h with rfl | rfl | rfl | rfl | rfl | rfl <;> exact ⟨_, rfl⟩

/-- Settles O34: a micro-operation replaces the registers, and keeps the configuration in them. -/
theorem passStepsLeaveTheRestAlone : Obligations.PassStepsLeaveTheRestAlone := by
  intro i hi s t h
  obtain ⟨ph, hph⟩ := microPhase_of_mem hi
  obtain ⟨ht, hk⟩ := exec_micro_next hph h
  rw [ht]
  exact ⟨fun _ => rfl, ⟨rfl, rfl, rfl, rfl, rfl, rfl, rfl, rfl⟩, hk.maxb, hk.presc, hk.pcount, hk.enable, hk.oe⟩

/-- Whether ENGINE has a step is a matter of the phase alone (R172). -/
theorem engineReady_setRegs {s : State} {r : Regs} (h : r.phase = s.regs.phase) :
    (s.setRegs r).engineReady = s.engineReady := by
  simp [State.engineReady, h]

/-- Of the registers ENGINE's move looks at the phase alone (R172). -/
theorem engineMove_setRegs {s : State} {r : Regs} (h : r.phase = s.regs.phase) :
    engineMove (s.setRegs r) = ((engineMove s).1, (engineMove s).2.setRegs r) := by
  unfold engineMove
  simp only [engineReady_setRegs h, State.setRegs_regs, h]
  split <;> rfl

/-- Of the registers the move without a turn looks at the phase alone (R238). -/
theorem idleMove_setRegs {s : State} {r : Regs} (h : r.phase = s.regs.phase) :
    idleMove (s.setRegs r) = ((idleMove s).1, (idleMove s).2.setRegs r) := by
  have ready := engineReady_setRegs h
  have busy : (s.setRegs r).hostBusy = s.hostBusy := rfl
  have order : Config.freeEngineFirst (s.setRegs r).draws = Config.freeEngineFirst s.draws := rfl
  simp only [idleMove, ready, busy, order]
  split
  · cases hf : Config.freeEngineFirst s.draws
    · exact hostMove_setRegs s.drawn r
    · exact engineMove_setRegs (s := s.drawn) h
  · split
    · exact engineMove_setRegs h
    · exact hostMove_setRegs s r

/-- Of the registers the choice of the next move looks at the phase alone. -/
theorem select_setRegs {s : State} {r : Regs} (h : r.phase = s.regs.phase) :
    select (s.setRegs r) = ((select s).1, (select s).2.setRegs r) := by
  have ready := engineReady_setRegs h
  have busy : (s.setRegs r).hostBusy = s.hostBusy := rfl
  have cut (rest : List Turn) : (s.setRegs r).setScript rest = (s.setScript rest).setRegs r := rfl
  rcases hs : s.script with _ | ⟨turn, rest⟩ <;> simp only [select, State.setRegs_script, hs]
  · exact idleMove_setRegs h
  · cases turn <;> simp only [ready, busy, cut]
    case host => exact hostMove_setRegs _ r
    case engine => exact engineMove_setRegs (s := s.setScript rest) h
    case run => split <;> [exact engineMove_setRegs h; rfl]
    case command | hostOp | finishHost => split <;> [exact hostMove_setRegs s r; rfl]

/-- ENGINE's turn in a pass presents the phase's word (R172). -/
theorem select_engine_of_pass {s : State} {rest : List Turn} (hs : s.script = .engine :: rest)
    (hp : s.regs.phase ≠ .idle) : select s = (.word (.phase s.regs.phase.code), s.setScript rest) := by
  rw [select_engine hs]
  exact (engineMove_cases (s.setScript rest)).resolve_right (fun h => hp h.1) |>.2

/-- With `enable` replaced, a micro-operation does the same (R172). -/
theorem exec_micro_setEnable {i : Instr} {ph : Phase} (hi : microPhase i = some ph) (s : State) (e : Bool) :
    exec i (s.setRegs { s.regs with enable := e })
      = mapNext (fun t => t.setRegs { t.regs with enable := e }) (exec i s) := by
  cases i with
  | pData =>
    by_cases h : s.regs.idx.toNat < s.params.nch
    · rw [exec_pData_inside h, exec_pData_inside (s := s.setRegs { s.regs with enable := e }) h]
      rfl
    · rw [dataStepOutsideTheBufferFaults s (Nat.not_lt.mp h),
        dataStepOutsideTheBufferFaults (s.setRegs { s.regs with enable := e }) (Nat.not_lt.mp h)]
      rfl
  | pClkhi =>
    rw [exec_pClkhi, exec_pClkhi, State.setRegs_regs, State.setRegs_params, clkhiRegs_setEnable]
    rfl
  | pLatchlo | pClklo | pLatchhi | pFinish => rfl
  | _ => cases hi

/-- Settles O19: the choice of the move looks at no register but the phase, and the micro-operations at all but
`enable`. -/
theorem stopNeverAbortsAPass : Obligations.StopNeverAbortsAPass := by
  refine ⟨fun s e => ?_, fun s rest e hs hp => ?_, fun i hi s e => ?_⟩
  · rw [(select_frame s).regs]
    exact select_setRegs rfl
  · rw [select_engine_of_pass (s := s.setRegs { s.regs with enable := e }) hs hp]
    rfl
  · obtain ⟨ph, hph⟩ := microPhase_of_mem hi
    exact exec_micro_setEnable hph s e

/-- Settles O38: `step` unfolded to the operation of the selected word. -/
theorem stepPerformsTheSelectedWord : Obligations.StepPerformsTheSelectedWord := by
  intro s u pw i hs hd
  simp only [step, takeTurn, hs, perform, runWord, hd]

/-! ### TICK and the countdown (R170, R171, R183, R189) -/

section Tick
variable {p : Params} {r : Regs}

theorem tickRegs_of_disabled (he : r.enable = false) : tickRegs p r = r := if_pos he

theorem tickRegs_of_busy (hb : r.busy = true) : tickRegs p r = r := by
  unfold tickRegs
  rw [if_pos hb, ite_self]

theorem tickRegs_of_more (he : r.enable = true) (hb : r.busy = false) (hc : countDown r.pcount ≠ 0#17) :
    tickRegs p r = { r with pcount := countDown r.pcount } := by
  simp [tickRegs, he, hb, hc]

theorem tickRegs_of_last (he : r.enable = true) (hb : r.busy = false) (hc : countDown r.pcount = 0#17) :
    tickRegs p r = beginPass p r := by
  simp [tickRegs, he, hb, hc]

end Tick

theorem exec_tick (s : State) : exec .tick s = .next (s.setRegs (tickRegs s.params s.regs)) := rfl

/-- Settles O22: one case of the tick handler for each clause. -/
theorem tickHandlerCases : Obligations.TickHandlerCases := by
  intro s
  rw [exec_tick]
  refine ⟨fun he => ?_, fun _ hb => ?_, fun he hb hc => ?_, fun he hb hc => ?_⟩
  · rw [tickRegs_of_disabled he]
    rfl
  · rw [tickRegs_of_busy hb]
    rfl
  · rw [tickRegs_of_more he hb hc]
    rfl
  · rw [tickRegs_of_last he hb hc]
    rfl

/-- Settles O23: with the guard set the tick handler answers the registers as they are. -/
theorem droppedTickChangesNothing : Obligations.DroppedTickChangesNothing := by
  intro s hb
  rw [exec_tick, tickRegs_of_busy hb]
  rfl

/-- The step of a tick turn (R96, R170). -/
theorem step_tick {s : State} {rest : List Turn} (hs : s.script = .tick :: rest) :
    step s = .next (chainReact s ((s.setScript rest).setRegs (tickRegs s.params s.regs))) :=
  step_of_select_word (i := .tick) (pw := .tick 1) (by simp [select, hs]) rfl (exec_tick (s.setScript rest))

/-- A tick turn during a pass is its turn taken, and nothing else (R171). -/
theorem step_tick_of_busy {s : State} {rest : List Turn} (hs : s.script = .tick :: rest) (hb : s.regs.busy = true)
    (ho : s.regs.oe = true) : step s = .next { s with script := rest } := by
  rw [step_tick hs, tickRegs_of_busy hb, chainReact_driven s ((s.setScript rest).setRegs s.regs) ho ho,
    State.setRegs_regs, Chain.driven_no_edge _ (risingEdge_self _) (risingEdge_self _)]
  rfl

/-- Settles O24: each of the ticks is dropped by a step of its own. -/
theorem overrunTicksLeaveNoTrace : Obligations.OverrunTicksLeaveNoTrace := by
  intro s k rest hb ho hs
  induction k generalizing s with
  | zero =>
    rw [List.replicate_zero, List.nil_append] at hs
    rw [← hs, steps_zero]
  | succ k ih =>
    rw [List.replicate_succ, List.cons_append] at hs
    rw [steps_succ_next (step_tick_of_busy hs hb ho)]
    exact ih _ hb ho rfl

/-- What tick turns leave alone, the registers being `r` after them and the turns `ts` still to come. -/
structure Ticked (s : State) (r : Regs) (ts : List Turn) (t : State) : Prop where
  params : t.params = s.params
  regs : t.regs = r
  buf : t.buf = s.buf
  script : t.script = ts

theorem Ticked.step {s : State} {ts : List Turn} (hs : s.script = .tick :: ts) :
    ∃ t, step s = .next t ∧ Ticked s (tickRegs s.params s.regs) ts t :=
  ⟨_, step_tick hs, by simp, by simp, by simp, by simp⟩

/-- With `k` ticks fewer than the countdown has left, each counts down by one (R170 c). -/
theorem Ticked.countDown {s : State} {k : Nat} {ts : List Turn} (he : s.regs.enable = true) (hb : s.regs.busy = false)
    (hk : k < s.regs.pcount.toNat) (hs : s.script = List.replicate k .tick ++ ts) :
    ∃ t, steps k s = .next t
      ∧ Ticked s { s.regs with pcount := BitVec.ofNat 17 (s.regs.pcount.toNat - k) } ts t := by
  induction k generalizing s with
  | zero => exact ⟨s, rfl, rfl, by simp, rfl, hs⟩
  | succ k ih =>
    rw [List.replicate_succ, List.cons_append] at hs
    obtain ⟨u, hu, hp, hr, hm, hts⟩ := Ticked.step hs
    have pred := countDown_toNat (Nat.one_le_of_lt hk)
    have more : Machine.countDown s.regs.pcount ≠ 0#17 := fun h => by
      rw [(countDown_eq_zero _).mp h] at hk
      exact absurd hk (by simp)
    rw [tickRegs_of_more he hb more] at hr
    obtain ⟨t, ht, hp', hr', hm', hts'⟩ := ih (s := u) (by rw [hr, he]) (by rw [hr, hb])
      (by rw [hr]; simp only [pred]; omega) hts
    refine ⟨t, (steps_succ_next hu).trans ht, hp'.trans hp, ?_, hm'.trans hm, hts'⟩
    rw [hr', hr]
    simp only [pred, Nat.sub_sub, Nat.add_comm 1 k]

/-- Settles O25: all ticks but the last count down to 1, and the last begins the pass. -/
theorem prescalerCountsTicksToAPass : Obligations.PrescalerCountsTicksToAPass := by
  intro s rest he hb h1 hs
  constructor
  · intro k hk
    have split : s.script = List.replicate k .tick ++ (List.replicate (s.regs.pcount.toNat - k) .tick ++ rest) := by
      rw [hs, ← List.append_assoc, List.replicate_append_replicate, Nat.add_sub_cancel' hk.le]
    obtain ⟨t, ht, _, hr, hm, _⟩ := Ticked.countDown he hb hk split
    exact ⟨t, ht, hm, hr⟩
  · obtain ⟨n, hn⟩ := Nat.exists_eq_succ_of_ne_zero (Nat.one_le_iff_ne_zero.mp h1)
    have split : s.script = List.replicate n .tick ++ .tick :: rest := by
      rw [hs, hn, List.replicate_succ', List.append_assoc, List.singleton_append]
    obtain ⟨t, ht, hp, hr, hm, hts⟩ := Ticked.countDown he hb (by omega) split
    obtain ⟨u, hu, _, hr', hm', hts'⟩ := Ticked.step hts
    have last : s.regs.pcount.toNat - n = 1 := by omega
    refine ⟨u, ?_, hm'.trans hm, hts', ?_⟩
    · rw [hn, Nat.succ_eq_add_one, steps_add ht, steps_succ_next hu, steps_zero]
    · rw [hr', hp, hr, last]
      exact tickRegs_of_last he hb ((countDown_eq_zero _).mpr rfl)

/-! ### The counter over a period (R179, R180) -/

/-- Settles O37: at `maxb` the counter and the remainder both start over. -/
theorem counterRunsThroughThePeriod : Obligations.CounterRunsThroughThePeriod := by
  intro maxb k
  induction k with
  | zero => simp
  | succ k ih =>
    rw [Function.iterate_succ_apply', advanceCounter_toNat, ih, ← Nat.mod_add_mod]
    have lt : k % (maxb.toNat + 1) < maxb.toNat + 1 := Nat.mod_lt k (Nat.succ_pos _)
    split
    · have last : k % (maxb.toNat + 1) = maxb.toNat := by omega
      rw [last, Nat.mod_self]
    · exact (Nat.mod_eq_of_lt (by omega)).symm

/-! ### The comparison's edges, and the duty cycle (R175, R184, R187, R191) -/

/-- Settles O36: the comparison as numbers. -/
theorem comparisonEdgeValues : Obligations.ComparisonEdgeValues := by
  intro p hp
  simp only [compareBit_of_not_invert hp, decide_eq_decide, decide_eq_true_eq, decide_eq_false_iff_not]
  refine ⟨fun c => Nat.not_lt_zero _, fun c => ?_, fun c => Nat.lt_irrefl _, fun c hc => ?_⟩
  · bv_omega
  · bv_omega

/-- A predicate of period `n` holds equally often over any `n` numbers in a row. -/
theorem count_shift_of_periodic {q : Nat → Prop} [DecidablePred q] {n : Nat} (hq : Function.Periodic q n) (k : Nat) :
    Nat.count (fun x => q (x + k)) n = Nat.count q n := by
  have front := Nat.count_add' q n k
  have back := Nat.count_add q n k
  have period : Nat.count (fun x => q (n + x)) k = Nat.count q k := by
    simp only [Nat.add_comm n, hq _]
  omega

/-- How many numbers below `n` are below `v`. -/
theorem count_lt (v n : Nat) : Nat.count (· < v) n = min v n := by
  induction n with
  | zero => simp
  | succ n ih =>
    rw [Nat.count_succ, ih]
    split <;> omega

/-- How many numbers below `n` are not below `v`. -/
theorem count_ge (v n : Nat) : Nat.count (v ≤ ·) n = n - min v n := by
  induction n with
  | zero => simp
  | succ n ih =>
    rw [Nat.count_succ, ih]
    split <;> omega

/-- With the default modulus, or without load balancing, the comparison value of a register is the counter moved on by a
fixed distance, modulo the period (R184). -/
theorem passCmp_eq_shift {p : Params} (h : p.loadBalance = false ∨ p.lbMod256 = false) (maxb : BitVec 8) (r : Nat) :
    ∃ k, ∀ c, c < maxb.toNat + 1 → (passCmp p maxb (BitVec.ofNat 8 c) r).toNat = (c + k) % (maxb.toNat + 1) := by
  have small {c : Nat} (hc : c < maxb.toNat + 1) : (BitVec.ofNat 8 c).toNat = c := by
    have := maxb.isLt
    exact BitVec.toNat_ofNat .. |>.trans (Nat.mod_eq_of_lt (by omega))
  cases hl : p.loadBalance
  · exact ⟨0, fun c hc => by rw [passCmp_of_not hl, small hc, Nat.add_zero, Nat.mod_eq_of_lt hc]⟩
  · have modulus : lbMod p maxb = maxb.toNat + 1 := if_neg (by simpa [hl] using h)
    exact ⟨8 * (p.nRegs - 1 - r), fun c hc => by rw [passCmp_toNat hl, small hc, modulus]⟩

/-- Counting over a period does not see the distance the counter is moved on by. -/
theorem count_mod_shift (q : Nat → Prop) [DecidablePred q] (n k : Nat) :
    Nat.count (fun c => q ((c + k) % n)) n = Nat.count q n := by
  rw [count_shift_of_periodic (q := fun x => q (x % n)) (fun x => by simp) k]
  refine List.countP_congr fun c hc => ?_
  simp only [Nat.mod_eq_of_lt (List.mem_range.mp hc)]

/-- A channel is on in a period as often as the comparison `q` with its value holds of the numbers of the period,
whatever distance its register's counter is moved on by (R187, R188). -/
theorem passBit_count {p : Params} (h : p.loadBalance = false ∨ p.lbMod256 = false) (maxb : BitVec 8) (b : Nat → Byte)
    (i : Nat) {q : Nat → Prop} [DecidablePred q] (hq : ∀ c : Byte, compareBit p (b i) c = decide (q c.toNat)) :
    ((List.range (maxb.toNat + 1)).filter (fun c => passBit p maxb (BitVec.ofNat 8 c) b i)).length
      = Nat.count q (maxb.toNat + 1) := by
  obtain ⟨k, hk⟩ := passCmp_eq_shift h maxb (i / 8)
  rw [← List.countP_eq_length_filter, ← count_mod_shift q _ k]
  refine List.countP_congr fun c hc => ?_
  rw [passBit, hq, hk c (List.mem_range.mp hc)]

/-- Settles O50: with `q` the numbers below the channel's value, or with INVERT the others. -/
theorem dutyCycleLaw : Obligations.DutyCycleLaw := by
  intro p maxb b i h
  cases hv : p.invert
  · rw [passBit_count h maxb b i (compareBit_of_not_invert hv (b i)), count_lt]
    simp
  · rw [passBit_count h maxb b i (compareBit_of_invert hv (b i)), count_ge]
    simp

/-- Settles O51: modulo 256 register 0 is compared against the counter plus 8, which exceeds every slot. -/
theorem otherModulusBreaksTheDutyCycle : Obligations.OtherModulusBreaksTheDutyCycle := by
  intro p b hn hl hm hv hb c hc i hi
  have register : i / 8 = 0 := Nat.div_eq_of_lt hi
  have cmp : (passCmp p 15 c 0).toNat = c.toNat + 8 := by
    rw [passCmp_toNat hl, hn, lbMod, if_pos hm]
    omega
  rw [passBit, register, hb, compareBit_of_not_invert hv, cmp]
  simp

/-! ### A pass, step by step (R181) -/

/-- The bit the pure pass function gives channel `i` in a pass under way, for the values the slots hold now (R185). -/
def State.passBitNow (s : State) (i : Nat) : Bool := passBit s.params s.regs.maxb s.regs.counter s.memRead i

/-- In a pass the comparison counter of P_DATA is that of the pass function (R184). -/
theorem exec_pData_passBit {s : State} (h : RegsInv s.params s.regs) (hph : s.regs.phase = .data) :
    exec .pData s = .next (s.setRegs { s.regs with data := s.passBitNow s.regs.idx.toNat, phase := .clkLow }) := by
  rw [exec_pData_inside h.idx_lt, h.pass_cmp (by simp [hph, Phase.shifting])]
  rfl

/-- Settles O46: the invariant says which channel is read, and against which value it is compared. -/
theorem dataStepDrivesThePassBit : Obligations.DataStepDrivesThePassBit := fun _ hi hph =>
  ⟨_, exec_pData_passBit hi.regs hph, rfl⟩

/-- A micro-operation has its phase's code as its word; that phase is not IDLE (R99). -/
theorem encode_of_microPhase {i : Instr} {ph : Phase} (h : microPhase i = some ph) :
    encode i = .phase ph.code ∧ ph ≠ .idle := by
  cases i <;> cases h
  all_goals exact ⟨rfl, nofun⟩

/-- The host software notes nothing of a micro-operation. -/
theorem hostNotes_of_microPhase {i : Instr} {ph : Phase} (h : microPhase i = some ph) (s : State) :
    s.hostNotes i = s := by
  cases i <;> cases h
  all_goals rfl

theorem risingEdge_low (before : Bool) : risingEdge before false = false := by simp [risingEdge]

theorem clkhiRegs_clock (p : Params) (r : Regs) : (clkhiRegs p r).clock = true := by
  unfold clkhiRegs
  split <;> rfl

section PassSteps
variable {s : State} {rest : List Turn}

/-- ENGINE's turn in a pass: the registers become what the phase's micro-operation makes of them, and the chain follows
the edges (R71, R72, R172). -/
theorem step_engine {i : Instr} {r : Regs} {c : Chain} (h : RegsInv s.params s.regs) (hs : s.script = .engine :: rest)
    (hi : microPhase i = some s.regs.phase) (he : exec i (s.setScript rest) = .next ((s.setScript rest).setRegs r))
    (hc : s.chain.driven s.regs r = c) : step s = .next { s with regs := r, script := rest, chain := c } := by
  obtain ⟨word, pass⟩ := encode_of_microPhase hi
  have driven := h.pass_driven (h.guard.mpr pass)
  rw [step_of_select_word (select_engine_of_pass hs pass) (word ▸ decodeInvertsEncode i) he,
    hostNotes_of_microPhase hi,
    chainReact_driven s ((s.setScript rest).setRegs r) driven ((exec_micro_next hi he).2.oe.trans driven), ← hc]
  rfl

variable (h : RegsInv s.params s.regs) (hs : s.script = .engine :: rest)
include h hs

theorem step_latchLow (hph : s.regs.phase = .latchLow) :
    step s = .next { s with regs := { s.regs with latch := false, phase := .data }, script := rest } :=
  step_engine h hs (by rw [hph]; rfl) (exec_pLatchlo _) (Chain.driven_no_edge _ (risingEdge_self _) (risingEdge_low _))

theorem step_data (hph : s.regs.phase = .data) : step s = .next { s with
    regs := { s.regs with data := s.passBitNow s.regs.idx.toNat, phase := .clkLow }, script := rest } :=
  step_engine h hs (by rw [hph]; rfl) (exec_pData_passBit (s := s.setScript rest) h hph)
    (Chain.driven_no_edge _ (risingEdge_self _) (risingEdge_self _))

theorem step_clkLow (hph : s.regs.phase = .clkLow) :
    step s = .next { s with regs := { s.regs with clock := false, phase := .clkHigh }, script := rest } :=
  step_engine h hs (by rw [hph]; rfl) (exec_pClklo _) (Chain.driven_no_edge _ (risingEdge_low _) (risingEdge_self _))

/-- P_CLKHI's rising clock edge shifts the level of the data line in (R71, R177). -/
theorem step_clkHigh (hph : s.regs.phase = .clkHigh) : step s = .next { s with
    regs := clkhiRegs s.params s.regs, script := rest, chain := s.chain.shift s.regs.data } :=
  step_engine h hs (by rw [hph]; rfl) (exec_pClkhi _)
    (by simp [Chain.driven, risingEdge, h.clock_low hph, clkhiRegs_clock])

/-- P_LATCHHI's rising latch edge presents the stages (R72, R178). -/
theorem step_latchHigh (hph : s.regs.phase = .latchHigh) : step s = .next { s with
    regs := { s.regs with latch := true, phase := .finish }, script := rest, chain := s.chain.present } :=
  step_engine h hs (by rw [hph]; rfl) (exec_pLatchhi _)
    (Chain.driven_latch_edge _ (risingEdge_self _) ((risingEdge_iff _ _).mpr ⟨h.latch_low (.inr hph), rfl⟩))

theorem step_finish (hph : s.regs.phase = .finish) : step s = .next { s with
    regs := endPass { s.regs with counter := advanceCounter s.regs.maxb s.regs.counter }, script := rest } :=
  step_engine h hs (by rw [hph]; rfl) (exec_pFinish _) (Chain.driven_no_edge _ (risingEdge_self _) (risingEdge_self _))

end PassSteps

/-! ### A channel, and all channels of a pass (R181, R185) -/

/-- The registers before P_CLKHI of the channel at DATA: its bit on the data line, the clock line low (R174, R176). -/
def State.bitShown (s : State) : Regs :=
  { s.regs with data := s.passBitNow s.regs.idx.toNat, clock := false, phase := .clkHigh }

/-- Channel 0 is the last: its P_CLKHI goes on to the latch (R177). -/
theorem clkhiRegs_bitShown_last {s : State} (h : s.regs.idx = 0#16) : clkhiRegs s.params s.bitShown = { s.regs with
    idx := 0, data := s.passBitNow 0, clock := true, cmp := cmpAfterShift s.params s.regs, phase := .latchHigh } := by
  rw [clkhiRegs_last s.params (r := s.bitShown) h]
  simp [State.bitShown, cmpAfterShift, h]

/-- The P_CLKHI of any other channel goes on to the DATA phase of the next one down (R177). -/
theorem clkhiRegs_bitShown_more {s : State} (h : s.regs.idx ≠ 0#16) : clkhiRegs s.params s.bitShown = { s.regs with
    data := s.passBitNow s.regs.idx.toNat, clock := true, cmp := cmpAfterShift s.params s.regs, idx := s.regs.idx - 1,
    phase := .data } :=
  clkhiRegs_more s.params (r := s.bitShown) h

/-- The three micro-operations of one channel shift its bit into the chain. -/
theorem steps_channel {s : State} {ts : List Turn} (h : RegsInv s.params s.regs) (hph : s.regs.phase = .data)
    (hs : s.script = List.replicate 3 .engine ++ ts) :
    RegsInv s.params (clkhiRegs s.params s.bitShown) ∧ steps 3 s = .next { s with
      regs := clkhiRegs s.params s.bitShown, script := ts, chain := s.chain.shift (s.passBitNow s.regs.idx.toNat) } := by
  have h₁ := h.dataStep hph (s.passBitNow s.regs.idx.toNat)
  have h₂ : RegsInv s.params s.bitShown := h₁.clockLow rfl
  have first := step_data h hs hph
  have second := step_clkLow (s := { s with regs := _, script := .engine :: .engine :: ts }) h₁ rfl rfl
  have third := step_clkHigh (s := { s with regs := s.bitShown, script := .engine :: ts }) h₂ rfl rfl
  exact ⟨h₂.clockHigh rfl,
    (steps_succ_next first).trans ((steps_succ_next second).trans (steps_succ_next third))⟩

/-- The bits of channels `n - 1` down to 0 in emission order: the model's `passBits` when `n = NCH` (R68, R185). -/
def State.passBitsNow (s : State) (n : Nat) : List Bool := ((List.range n).map s.passBitNow).reverse

theorem State.passBitsNow_succ (s : State) (n : Nat) :
    s.passBitsNow (n + 1) = s.passBitNow n :: s.passBitsNow n := by
  simp [passBitsNow, List.range_succ]

/-- From the DATA phase of channel `n` the micro-operations of the channels `n` down to 0 shift their bits into the
chain; then the latch is next. -/
theorem steps_channels {s : State} {n : Nat} {ts : List Turn} (h : RegsInv s.params s.regs) (hph : s.regs.phase = .data)
    (hn : s.regs.idx.toNat = n) (hs : s.script = List.replicate (3 * (n + 1)) .engine ++ ts) :
    ∃ cmp r, r = { s.regs with
        idx := 0, cmp := cmp, data := s.passBitNow 0, clock := true, phase := .latchHigh }
      ∧ RegsInv s.params r
      ∧ steps (3 * (n + 1)) s = .next { s with
          regs := r, script := ts, chain := (s.passBitsNow (n + 1)).foldl Chain.shift s.chain } := by
  induction n generalizing s with
  | zero =>
    have h0 : s.regs.idx = 0#16 := BitVec.eq_of_toNat_eq hn
    obtain ⟨inv, run⟩ := steps_channel h hph hs
    rw [hn] at run
    exact ⟨cmpAfterShift s.params s.regs, _, clkhiRegs_bitShown_last h0, inv, run⟩
  | succ n ih =>
    have h0 : s.regs.idx ≠ 0#16 := fun e => by simp [e] at hn
    have split : s.script = List.replicate 3 .engine ++ (List.replicate (3 * (n + 1)) .engine ++ ts) := by
      rw [hs, ← List.append_assoc, List.replicate_append_replicate, Nat.add_comm 3, Nat.mul_succ 3 (n + 1)]
    obtain ⟨inv, run⟩ := steps_channel h hph split
    rw [clkhiRegs_bitShown_more h0] at inv run
    have below : (s.regs.idx - 1).toNat = n := by bv_omega
    obtain ⟨cmp, r, hr, inv', run'⟩ := ih (s := { s with regs := _, script := _, chain := _ }) inv rfl below rfl
    refine ⟨cmp, r, hr, inv', ?_⟩
    rw [Nat.mul_succ, Nat.add_comm, steps_add run, run', State.passBitsNow_succ s (n + 1), hn]
    rfl

/-- P_LATCHHI presents the stages and P_FINISH ends the pass (R178, R179). -/
theorem steps_latch {s : State} {ts : List Turn} (h : RegsInv s.params s.regs) (hph : s.regs.phase = .latchHigh)
    (hs : s.script = .engine :: .engine :: ts) :
    steps 2 s = .next { s with
      regs := endPass { s.regs with latch := true, counter := advanceCounter s.regs.maxb s.regs.counter }
      script := ts
      chain := s.chain.present } :=
  (steps_succ_next (step_latchHigh h hs hph)).trans (steps_succ_next (step_finish (h.latchHigh hph) rfl rfl))

/-- Shifted into a chain of `n` stages, the bits of the channels stand each in its own stage (R73). -/
theorem passBitsNow_shifted {s : State} {n : Nat} (hn : s.chain.sr.length = n) :
    ((s.passBitsNow n).foldl Chain.shift s.chain).sr = (List.range n).map s.passBitNow := by
  have all : (s.passBitsNow n).length = s.chain.sr.length := by simp [State.passBitsNow, hn]
  rw [(chainHoldsTheBitsInWireOrder s.chain _ all).1, State.passBitsNow, List.reverse_reverse]

/-- Settles O47: P_LATCHLO, the channels from the last down to 0, P_LATCHHI, P_FINISH; what the latch presents is the
frame by `passBitsNow_shifted`. -/
theorem passPresentsItsFrame : Obligations.PassPresentsItsFrame := by
  intro s rest hi hph hs
  obtain ⟨n, hn⟩ := Nat.exists_eq_succ_of_ne_zero (nch_pos hi.params).ne'
  have last : s.regs.idx.toNat = n := by rw [(hi.regs.pass_start hph).1, hn, Nat.succ_sub_one]
  have frame := passBitsNow_shifted (hi.chain_length.1.trans hn)
  have split : s.script = .engine :: (List.replicate (3 * (n + 1)) .engine ++ .engine :: .engine :: rest) := by
    rw [hs, hn, List.replicate_succ (n := 3 * (n + 1) + 2), List.replicate_add, List.cons_append, List.append_assoc]
    rfl
  have first := step_latchLow hi.regs split hph
  obtain ⟨cmp, r, hr, inv, channels⟩ := steps_channels (s := { s with
    regs := _, script := List.replicate (3 * (n + 1)) .engine ++ .engine :: .engine :: rest })
    (hi.regs.latchLow hph) rfl last rfl
  have latch := steps_latch (s := { s with
    regs := r, script := .engine :: .engine :: rest, chain := (s.passBitsNow (n + 1)).foldl Chain.shift s.chain })
    inv (by rw [hr]) rfl
  rw [hn]
  refine ⟨_, (steps_succ_next first).trans ((steps_add channels).trans latch), frame, ?_, rfl, rfl, rfl, rfl, rfl, rfl⟩
  rw [hr]
  rfl

end Sys2Proof.Machine

/-! PROOFS. The lifecycle's family: START and STOP as operations, their sequence, and who changes the configuration. -/

namespace Sys2Proof.Machine

/-! ### START and STOP, one effect each (R210, R211, R213) -/

section Lifecycle
variable {s : State} (freq : BitVec 16) (maxb : Byte)

/-- With no pass in progress START writes its registers (R210). -/
theorem exec_start_of_free (hb : s.regs.busy = false) :
    exec (.start freq maxb) s = .next (s.setRegs (startRegs s.params freq maxb s.regs)).respUndefined :=
  if_neg (by simp [hb])

/-- During a pass START has no meaning (R211). -/
theorem exec_start_of_busy (hb : s.regs.busy = true) : exec (.start freq maxb) s = .refused .startWhileBusy :=
  if_pos hb

end Lifecycle

/-- STOP clears `enable` in every state (R213). -/
theorem exec_stop (s : State) : exec .stop s = .next (s.setRegs { s.regs with enable := false }).respUndefined := rfl

/-- Settles O16: `exec_start_of_free`; the prescaler's value fits its 17 bits by `prescalerOf_toNat`. -/
theorem startConfiguresAndEnables : Obligations.StartConfiguresAndEnables := fun s freq maxb hb =>
  ⟨_, exec_start_of_free freq maxb hb, rfl, prescalerOf_toNat s.params freq, fun _ => rfl, rfl, rfl, rfl, rfl, rfl⟩

/-- Settles O17: `exec_start_of_busy`. -/
theorem startDuringAPassIsRefused : Obligations.StartDuringAPassIsRefused := fun _ => exec_start_of_busy

/-- Settles O18: `exec_stop`. -/
theorem stopDisablesAndNothingElse : Obligations.StopDisablesAndNothingElse := fun s =>
  ⟨_, exec_stop s, rfl, fun _ => rfl, rfl, rfl, rfl, rfl, rfl⟩

/-! ### START, STOP, START (R216) -/

/-- START overwrites all that an earlier START and a STOP after it wrote. -/
theorem startRegs_restart (p : Params) (f₁ f₂ : BitVec 16) (m₁ m₂ : Byte) (r : Regs) :
    startRegs p f₂ m₂ { startRegs p f₁ m₁ r with enable := false } = startRegs p f₂ m₂ r := rfl

/-- Settles O20: START leaves the guard free and STOP does not touch it, so the second START completes too; what it leaves
is `startRegs_restart`. -/
theorem restartLeavesWhatOneStartLeaves : Obligations.RestartLeavesWhatOneStartLeaves := fun s f₁ f₂ m₁ m₂ hb =>
  ⟨_, _, _, _, exec_start_of_free f₁ m₁ hb, exec_stop _, exec_start_of_free f₂ m₂ rfl, exec_start_of_free f₂ m₂ hb,
    startRegs_restart s.params f₁ f₂ m₁ m₂ s.regs, rfl, rfl, rfl⟩

/-! ### Who changes the configuration (R214) -/

/-- TICK leaves the configuration alone, whether it counts down or begins a pass (R170). -/
theorem tickRegs_config (p : Params) (r : Regs) : (tickRegs p r).maxb = r.maxb ∧ (tickRegs p r).presc = r.presc := by
  unfold tickRegs
  repeat' split
  all_goals exact ⟨rfl, rfl⟩

/-- Every operation but START and RESET leaves the configuration alone. -/
theorem exec_config {i : Instr} {s t : State} (h : exec i s = .next t) :
    i = .reset ∨ (∃ freq maxb, i = .start freq maxb)
    ∨ (t.regs.maxb = s.regs.maxb ∧ t.regs.presc = s.regs.presc) := by
  rcases hi : microPhase i with _ | ph
  · cases i with
    | reset => exact .inl rfl
    | start freq maxb => exact .inr (.inl ⟨freq, maxb, rfl⟩)
    | tick => cases h; exact .inr (.inr (tickRegs_config s.params s.regs))
    | setone index value => rcases execSetone_next h with ⟨_, rfl⟩ | ⟨_, rfl⟩ <;> simp
    | stop | setall | getone => cases h; exact .inr (.inr ⟨rfl, rfl⟩)
    | _ => cases hi
  · obtain ⟨_, keeps⟩ := exec_micro_next hi h
    exact .inr (.inr ⟨keeps.maxb, keeps.presc⟩)

/-- Settles O21: registers that a step changes were changed by the operation of the selected word, and `exec_config` says
which operations reach the configuration. -/
theorem configurationChangesOnlyByStartOrReset : Obligations.ConfigurationChangesOnlyByStartOrReset := by
  intro s t h hne
  obtain ⟨pw, i, u, hs, hd, he, hr⟩ := step_regs h fun e => by simp [e] at hne
  rcases exec_config he with rfl | ⟨freq, maxb, rfl⟩ | ⟨hm, hp⟩
  · exact ⟨pw, _, hs, .inl hd⟩
  · exact ⟨pw, _, hs, .inr ⟨freq, maxb, hd⟩⟩
  · rw [hr, hm, hp, (select_frame s).regs] at hne
    simp at hne

end Sys2Proof.Machine

/-! PROOFS. The exceptions' family: when a step stops. The block has no fault (R230, R231), and what is refused is what the
spec gives no meaning (R232). -/

namespace Sys2Proof.Machine

/-! ### A word that stops -/

/-- A word faults only where `idx` names no channel (log 14). -/
theorem runWord_fault {pw : PortWord} {s : State} {e : Fault} (h : runWord pw s = .fault e) :
    s.params.nch ≤ s.regs.idx.toNat := by
  unfold runWord at h
  split at h
  · obtain ⟨_, outside, _⟩ := exec_fault (mapNext_eq_fault h)
    exact outside
  all_goals cases h

/-- A word is refused only when it is a START during a pass, or the unused phase code (R33, R211). -/
theorem runWord_refused {pw : PortWord} {s : State} {e : Refusal} (h : runWord pw s = .refused e) :
    (e = .startWhileBusy ∧ s.regs.busy = true ∧ ∃ freq maxb, decode pw = .ok (.start freq maxb))
      ∨ decode pw = .error .phaseUnused := by
  unfold runWord at h
  split at h <;> rename_i hd
  · obtain ⟨⟨freq, maxb, rfl⟩, hb, he⟩ := exec_refused (mapNext_eq_refused h)
    exact .inl ⟨he, hb, freq, maxb, hd⟩
  · cases h
  · cases h
  · cases h
  · exact .inr hd

/-- The unused phase code is never selected (R33, U9). -/
theorem select_decode_ne_phaseUnused {s : State} {pw : PortWord} (h : (select s).1 = .word pw) :
    decode pw ≠ .error .phaseUnused := by
  rcases select_word h with ⟨w, rfl, _⟩ | rfl | rfl | ⟨_, rfl⟩
  · intro hd
    cases ((decode_cmd_error_iff w _).mp hd).2
  · nofun
  · nofun
  · cases s.regs.phase <;> nofun

/-- START comes from the command port alone (R93). -/
theorem decode_start {pw : PortWord} {freq : BitVec 16} {maxb : Byte} (hd : decode pw = .ok (.start freq maxb)) :
    ∃ w, pw = .cmd w := by
  by_contra hp
  exact hp ⟨_, eq_encode_of_decode hd fun h => hp (exists_eq_cmd_of_port h)⟩

/-! ### The second half of SETALLHSV -/

/-- A replication is selected only as HOST's next action (R152). -/
theorem select_replicate {s : State} (h : (select s).1 = .replicate) : ∃ rest, s.host.current = .replicate :: rest := by
  rcases select_host s with ⟨hm | ⟨_, hm, _⟩ | ⟨_, hm, _⟩ | ⟨_, hm⟩, _⟩ | ⟨_, _, hm, _⟩ | ⟨_, _, hm, _⟩ | ⟨_, _, hm, _⟩
    | ⟨rest, hm, hc, _⟩ <;> cases h.symm.trans hm
  exact ⟨rest, hc⟩

/-- With three responses in hand and a `pinGrouping` of at least 1 the replication begins (R152). -/
theorem replicateKept_completes {s : State} (hk : s.host.kept.length = 3) (hn : s.host.pinGrouping ≠ none)
    (h0 : s.host.pinGrouping ≠ some 0) : ∃ t, replicateKept s = .next t := by
  obtain ⟨r, g, b, hk⟩ := List.length_eq_three.mp hk
  obtain ⟨n, hn⟩ := Option.ne_none_iff_exists'.mp hn
  cases n with
  | zero => exact absurd hn h0
  | succ n => simp [replicateKept, withGrouping, hk, hn]

/-- From a possible position of the host software a selected replication begins. -/
theorem HostInv.selected_replication_completes {s : State} (hh : HostInv s.host) (hm : (select s).1 = .replicate) :
    ∃ t, replicateKept (select s).2 = .next t := by
  obtain ⟨rest, hc⟩ := select_replicate hm
  obtain ⟨hk, _⟩ : s.host.kept.length = 3 ∧ rest = [] := by simpa [hc, actionsOk] using hh.position
  have frame := select_frame s
  rw [← frame.kept] at hk
  exact replicateKept_completes hk (frame.pinGrouping ▸ hh.grouping_set (by simp [hc]))
    (frame.pinGrouping ▸ hh.grouping_pos)

/-! ### When a step stops -/

/-- Settles O44: `idx` names a channel, so no word faults; a replication finds its responses; nothing else can fault. -/
theorem stepNeverFaults : Obligations.StepNeverFaults := by
  intro s e hi h
  obtain ⟨_, hr, _, _, hh⟩ := (inv_iff s).mp hi
  have frame := select_frame s
  replace h := step_fault h
  cases hm : (select s).1 <;> rw [hm] at h
  case word pw =>
    have outside := runWord_fault h
    rw [frame.params, frame.regs] at outside
    exact absurd hr.idx_lt (Nat.not_lt.mpr outside)
  case hostOp o => exact performOp_fault h
  case replicate =>
    obtain ⟨t, completes⟩ := hh.selected_replication_completes hm
    cases completes.symm.trans h
  all_goals cases h

/-- Settles O45: a refused word is a START; a refused pseudo-operation is one of `performOp_refused`, where a `pinGrouping`
of 0 contradicts the invariant; a replication is not refused. -/
theorem refusalsAreTheSpecsGaps : Obligations.RefusalsAreTheSpecsGaps := by
  intro s e hi h
  obtain ⟨_, _, _, _, hh⟩ := (inv_iff s).mp hi
  have frame := select_frame s
  replace h := step_refused h
  cases hm : (select s).1 <;> rw [hm] at h
  case word pw =>
    rcases runWord_refused h with ⟨he, hb, freq, maxb, hd⟩ | unused
    · obtain ⟨w, rfl⟩ := decode_start hd
      exact .inl ⟨he, frame.regs ▸ hb, w, freq, maxb, rfl, hd⟩
    · exact absurd unused (select_decode_ne_phaseUnused hm)
  case hostOp o =>
    have gap := performOp_refused h
    rw [frame.pinGrouping] at gap
    exact .inr ⟨o, rfl, by simpa [hh.grouping_pos] using gap⟩
  case replicate =>
    obtain ⟨t, completes⟩ := hh.selected_replication_completes hm
    cases completes.symm.trans h
  all_goals cases h

end Sys2Proof.Machine

/-! PROOFS. The family of reset: RESET as an operation, and a reset turn as a step. -/

namespace Sys2Proof.Machine

/-- RESET completes in every state: registers 0 and no SETALL under way (R260, R261); what `resp` shows after it is a free
value (log 6). -/
theorem exec_reset (s : State) : exec .reset s = .next ((s.setRegs Regs.reset).setSetall none).respUndefined := rfl

/-- Settles O7: the next state of `exec_reset`, field by field. -/
theorem resetClearsRegistersAndKeepsTheBuffer : Obligations.ResetClearsRegistersAndKeepsTheBuffer := fun s =>
  ⟨_, exec_reset s, rfl, fun _ => rfl, rfl, rfl, rfl, rfl, rfl, rfl⟩

/-- A reset turn presents the pin's word, whatever is under way (R97). -/
theorem select_reset {s : State} {rest : List Turn} (hs : s.script = .reset :: rest) :
    select s = (.word (.reset 1), s.setScript rest) := by
  simp [select, hs]

/-- The step of a reset turn. RESET releases the lines, so the chain is unknown (R74, D31): its contents are the first draw
that neither the state nor `resp` has used. -/
theorem step_reset {s : State} {rest : List Turn} (hs : s.script = .reset :: rest) :
    step s = .next ((((s.setScript rest).setRegs Regs.reset).setSetall none).respUndefined.setChain
      (Chain.unknown s.params.nch (s.draws + 1))).drawn := by
  have released : Regs.reset.oe = false := rfl
  rw [step_of_select_word (select_reset hs) (decodeInvertsEncode .reset) (exec_reset (s.setScript rest))]
  exact congrArg Host.Outcome.next (chainReact_undriven s _ (.inr released))

/-- Settles O8: the next state of `step_reset`, field by field. -/
theorem resetMakesTheChainUnknown : Obligations.ResetMakesTheChainUnknown := fun s _ hs =>
  ⟨_, s.draws + 1, step_reset hs, rfl, rfl, rfl, rfl, rfl, rfl, rfl⟩

end Sys2Proof.Machine
